-- ==== Sys2Proof/Word.lean ====
section
/-! DEFINITION. The bit vector types of the hardware (rules R5, R7, R21, R24, R91). -/

namespace Sys2Proof

/-- A memory byte or the content of a general register. -/
abbrev Byte := BitVec 8

/-- An opcode, the program counter, the index register or a stack entry. -/
abbrev Word := BitVec 16

/-- A 4-bit register index, the `x` or `y` of an instruction (R9). -/
abbrev RegIx := BitVec 4

/-- The index of `VF`, the flag register (R22). -/
abbrev vf : RegIx := 15#4

end Sys2Proof
end

