-- ==== Sys2Proof/Syntax.lean ====
section
/-! DEFINITION. The instructions: one constructor per row of `spec/opcode_table.json` (rule R102).

Operand fields are those of rule R91. A constructor also carries the bits of its word that the
decoder neither tests nor uses (the `-` bits of R92, `i` in the table), named `pad`, or `bits` in
the four no-op rows, so that every one of the 65536 words is one instruction term and no bit is
dropped (log 5). No meaning reads them. -/

namespace Sys2Proof

inductive Instr where
  /-- `0nnn` SYS, the family-0 no-op (R127). -/
  | sys (bits : BitVec 12)
  /-- `00E0` CLS (R210). `pad` is bits 11 to 4 (R94). -/
  | cls (pad : BitVec 8)
  /-- `00EE` RET (R140). `pad` is bits 11 to 4 (R94). -/
  | ret (pad : BitVec 8)
  /-- `1nnn` JP nnn (R141). -/
  | jp (nnn : BitVec 12)
  /-- `2nnn` CALL nnn (R142). -/
  | call (nnn : BitVec 12)
  /-- `3xkk` SE Vx, kk (R143). -/
  | seImm (x : RegIx) (kk : Byte)
  /-- `4xkk` SNE Vx, kk (R144). -/
  | sneImm (x : RegIx) (kk : Byte)
  /-- `5xy0` SE Vx, Vy (R145). `pad` is the low nibble (R98). -/
  | seReg (x y : RegIx) (pad : BitVec 4)
  /-- `6xkk` LD Vx, kk (R160). -/
  | ldImm (x : RegIx) (kk : Byte)
  /-- `7xkk` ADD Vx, kk (R161). -/
  | addImm (x : RegIx) (kk : Byte)
  /-- `8xy0` LD Vx, Vy (R162). -/
  | ldReg (x y : RegIx)
  /-- `8xy1` OR Vx, Vy (R163). -/
  | orReg (x y : RegIx)
  /-- `8xy2` AND Vx, Vy (R164). -/
  | andReg (x y : RegIx)
  /-- `8xy3` XOR Vx, Vy (R165). -/
  | xorReg (x y : RegIx)
  /-- `8xy4` ADD Vx, Vy (R166). -/
  | addReg (x y : RegIx)
  /-- `8xy5` SUB Vx, Vy (R167). -/
  | subReg (x y : RegIx)
  /-- `8xy6` SHR Vx (R168). `y` is encoded and not used. -/
  | shr (x y : RegIx)
  /-- `8xy7` SUBN Vx, Vy (R169). -/
  | subnReg (x y : RegIx)
  /-- `8xyE` SHL Vx (R170). `y` is encoded and not used. -/
  | shl (x y : RegIx)
  /-- `9xy0` SNE Vx, Vy (R146). `pad` is the low nibble (R98). -/
  | sneReg (x y : RegIx) (pad : BitVec 4)
  /-- `Annn` LD I, nnn (R190). -/
  | ldI (nnn : BitVec 12)
  /-- `Bnnn` JP V0, nnn (R147). -/
  | jpV0 (nnn : BitVec 12)
  /-- `Cxkk` RND Vx, kk (R171). -/
  | rnd (x : RegIx) (kk : Byte)
  /-- `Dxyn` DRW Vx, Vy, n (R211). -/
  | drw (x y : RegIx) (n : BitVec 4)
  /-- `Ex9E` SKP Vx (R230). `pad` is bits 7 to 4 (R96). -/
  | skp (x : RegIx) (pad : BitVec 4)
  /-- `ExA1` SKNP Vx (R231). `pad` is bits 7 to 4 (R96). -/
  | sknp (x : RegIx) (pad : BitVec 4)
  /-- `Fx07` LD Vx, DT (R232). -/
  | ldVxDT (x : RegIx)
  /-- `Fx0A` LD Vx, K (R233). -/
  | ldVxK (x : RegIx)
  /-- `Fx15` LD DT, Vx (R234). -/
  | ldDTVx (x : RegIx)
  /-- `Fx18` LD ST, Vx (R235). -/
  | ldSTVx (x : RegIx)
  /-- `Fx1E` ADD I, Vx (R191). -/
  | addIVx (x : RegIx)
  /-- `Fx29` LD F, Vx (R192). -/
  | ldFVx (x : RegIx)
  /-- `Fx33` LD B, Vx (R193). -/
  | ldBVx (x : RegIx)
  /-- `Fx55` LD [I], Vx (R194). -/
  | ldMemVx (x : RegIx)
  /-- `Fx65` LD Vx, [I] (R195). -/
  | ldVxMem (x : RegIx)
  /-- NOP8, the family-8 no-op (R127). -/
  | nop8 (bits : BitVec 12)
  /-- NOPE, the family-E no-op (R127). -/
  | nopE (bits : BitVec 12)
  /-- NOPF, the family-F no-op (R127). -/
  | nopF (bits : BitVec 12)
  deriving DecidableEq, Repr

end Sys2Proof
end

