-- ==== Sys2Proof/WellFormed.lean ====
section
/-! DEFINITION. Which instruction terms stand for a word.

Every operand value of the 34 instructions with a handler of their own is encodable, so only the
four no-op rows have a check: their bits must not select another handler of the family (R99). -/

namespace Sys2Proof

/-- Family 0 words whose low nibble is neither 0 (CLS) nor E (RET) (R94). -/
def sysBits (bits : BitVec 12) : Bool :=
  let n := bits.toNat % 16
  n != 0x0 && n != 0xE

/-- Family 8 words whose low nibble is 8, 9, A, B, C, D or F (R95). -/
def nop8Bits (bits : BitVec 12) : Bool :=
  let n := bits.toNat % 16
  decide (8 ≤ n) && n != 0xE

/-- Family E words whose low nibble is neither 1 (SKNP) nor E (SKP) (R96). -/
def nopEBits (bits : BitVec 12) : Bool :=
  let n := bits.toNat % 16
  n != 0x1 && n != 0xE

/-- The nine values of the low byte that family F maps to an instruction (R97). -/
def mappedF : List Nat := [0x07, 0x0A, 0x15, 0x18, 0x1E, 0x29, 0x33, 0x55, 0x65]

/-- Family F words whose low byte is none of the nine (R97). -/
def nopFBits (bits : BitVec 12) : Bool :=
  !(mappedF.contains (bits.toNat % 256))

/-- The term is the meaning of some word. -/
def Instr.wellFormed : Instr → Bool
  | .sys bits => sysBits bits
  | .nop8 bits => nop8Bits bits
  | .nopE bits => nopEBits bits
  | .nopF bits => nopFBits bits
  | .cls _ | .ret _ | .jp _ | .call _ | .seImm _ _ | .sneImm _ _ | .seReg _ _ _
  | .ldImm _ _ | .addImm _ _ | .ldReg _ _ | .orReg _ _ | .andReg _ _ | .xorReg _ _
  | .addReg _ _ | .subReg _ _ | .shr _ _ | .subnReg _ _ | .shl _ _ | .sneReg _ _ _
  | .ldI _ | .jpV0 _ | .rnd _ _ | .drw _ _ _ | .skp _ _ | .sknp _ _
  | .ldVxDT _ | .ldVxK _ | .ldDTVx _ | .ldSTVx _ | .addIVx _ | .ldFVx _
  | .ldBVx _ | .ldMemVx _ | .ldVxMem _ => true

end Sys2Proof
end

