-- ==== Sys2Proof/Decode.lean ====
section
/-! DEFINITION. From bytes to instructions and back (`30_encoding.md`). -/

namespace Sys2Proof

/-! The fields of an opcode (R91). -/

/-- `op[15:12]`, the family selector. -/
def famOf (op : Word) : BitVec 4 := op.extractLsb' 12 4

/-- `op[11:8]`, the first register index. -/
def xOf (op : Word) : RegIx := op.extractLsb' 8 4

/-- `op[7:4]`, the second register index. -/
def yOf (op : Word) : RegIx := op.extractLsb' 4 4

/-- `op[3:0]`, the low nibble. -/
def nOf (op : Word) : BitVec 4 := op.extractLsb' 0 4

/-- `op[7:0]`, the low byte. -/
def kkOf (op : Word) : Byte := op.extractLsb' 0 8

/-- `op[11:0]`, the low 12 bits. -/
def nnnOf (op : Word) : BitVec 12 := op.extractLsb' 0 12

/-- `op[11:4]`, the bits that family 0 ignores (R94). -/
def midOf (op : Word) : BitVec 8 := op.extractLsb' 4 8

/-! Secondary dispatch. -/

/-- Family 0: on the low nibble only (R94). -/
def decodeFam0 (op : Word) : Instr :=
  match (nOf op).toNat with
  | 0x0 => .cls (midOf op)
  | 0xE => .ret (midOf op)
  | _ => .sys (nnnOf op)

/-- Family 8: on the low nibble (R95). -/
def decodeFam8 (op : Word) : Instr :=
  match (nOf op).toNat with
  | 0x0 => .ldReg (xOf op) (yOf op)
  | 0x1 => .orReg (xOf op) (yOf op)
  | 0x2 => .andReg (xOf op) (yOf op)
  | 0x3 => .xorReg (xOf op) (yOf op)
  | 0x4 => .addReg (xOf op) (yOf op)
  | 0x5 => .subReg (xOf op) (yOf op)
  | 0x6 => .shr (xOf op) (yOf op)
  | 0x7 => .subnReg (xOf op) (yOf op)
  | 0xE => .shl (xOf op) (yOf op)
  | _ => .nop8 (nnnOf op)

/-- Family E: on the low nibble only (R96). -/
def decodeFamE (op : Word) : Instr :=
  match (nOf op).toNat with
  | 0xE => .skp (xOf op) (yOf op)
  | 0x1 => .sknp (xOf op) (yOf op)
  | _ => .nopE (nnnOf op)

/-- Family F: on the low byte, all eight bits (R97). -/
def decodeFamF (op : Word) : Instr :=
  match (kkOf op).toNat with
  | 0x07 => .ldVxDT (xOf op)
  | 0x0A => .ldVxK (xOf op)
  | 0x15 => .ldDTVx (xOf op)
  | 0x18 => .ldSTVx (xOf op)
  | 0x1E => .addIVx (xOf op)
  | 0x29 => .ldFVx (xOf op)
  | 0x33 => .ldBVx (xOf op)
  | 0x55 => .ldMemVx (xOf op)
  | 0x65 => .ldVxMem (xOf op)
  | _ => .nopF (nnnOf op)

/-- Primary dispatch on the top nibble (R93). Total: every word is an instruction (R99, R100). -/
def decodeWord (op : Word) : Instr :=
  match (famOf op).toNat with
  | 0x0 => decodeFam0 op
  | 0x1 => .jp (nnnOf op)
  | 0x2 => .call (nnnOf op)
  | 0x3 => .seImm (xOf op) (kkOf op)
  | 0x4 => .sneImm (xOf op) (kkOf op)
  | 0x5 => .seReg (xOf op) (yOf op) (nOf op)
  | 0x6 => .ldImm (xOf op) (kkOf op)
  | 0x7 => .addImm (xOf op) (kkOf op)
  | 0x8 => decodeFam8 op
  | 0x9 => .sneReg (xOf op) (yOf op) (nOf op)
  | 0xA => .ldI (nnnOf op)
  | 0xB => .jpV0 (nnnOf op)
  | 0xC => .rnd (xOf op) (kkOf op)
  | 0xD => .drw (xOf op) (yOf op) (nOf op)
  | 0xE => decodeFamE op
  | _ => decodeFamF op

/-- Why a list of bytes is no instruction. -/
inductive DecodeError where
  /-- Fewer than the two bytes every instruction has (R90). The fetch never meets it (R121). Safe. -/
  | truncated
  deriving DecidableEq, Repr

/-- The opcode of two bytes, the byte at the lower address first (R65). -/
def opcodeOf (hi lo : Byte) : Word := hi ++ lo

/-- The first instruction of a list of bytes, and the bytes after it. -/
def decode : List Byte → Except DecodeError (Instr × List Byte)
  | hi :: lo :: rest => .ok (decodeWord (opcodeOf hi lo), rest)
  | _ => .error .truncated

/-! Encoding, from the patterns of R102 and the layouts of R92. -/

/-- `ffff xxxx yyyy nnnn`. -/
def wordXYN (f : BitVec 4) (x y : RegIx) (n : BitVec 4) : Word := f ++ x ++ y ++ n

/-- `ffff xxxx kkkk kkkk`. -/
def wordXKK (f : BitVec 4) (x : RegIx) (kk : Byte) : Word := f ++ x ++ kk

/-- `ffff nnnn nnnn nnnn`. -/
def wordNNN (f : BitVec 4) (nnn : BitVec 12) : Word := f ++ nnn

/-- `0000 ---- ---- ssss`. -/
def wordFam0 (mid : BitVec 8) (n : BitVec 4) : Word := 0x0#4 ++ mid ++ n

/-- The word of an instruction. -/
def encode : Instr → Word
  | .sys bits => wordNNN 0x0 bits
  | .cls pad => wordFam0 pad 0x0
  | .ret pad => wordFam0 pad 0xE
  | .jp nnn => wordNNN 0x1 nnn
  | .call nnn => wordNNN 0x2 nnn
  | .seImm x kk => wordXKK 0x3 x kk
  | .sneImm x kk => wordXKK 0x4 x kk
  | .seReg x y pad => wordXYN 0x5 x y pad
  | .ldImm x kk => wordXKK 0x6 x kk
  | .addImm x kk => wordXKK 0x7 x kk
  | .ldReg x y => wordXYN 0x8 x y 0x0
  | .orReg x y => wordXYN 0x8 x y 0x1
  | .andReg x y => wordXYN 0x8 x y 0x2
  | .xorReg x y => wordXYN 0x8 x y 0x3
  | .addReg x y => wordXYN 0x8 x y 0x4
  | .subReg x y => wordXYN 0x8 x y 0x5
  | .shr x y => wordXYN 0x8 x y 0x6
  | .subnReg x y => wordXYN 0x8 x y 0x7
  | .shl x y => wordXYN 0x8 x y 0xE
  | .sneReg x y pad => wordXYN 0x9 x y pad
  | .ldI nnn => wordNNN 0xA nnn
  | .jpV0 nnn => wordNNN 0xB nnn
  | .rnd x kk => wordXKK 0xC x kk
  | .drw x y n => wordXYN 0xD x y n
  | .skp x pad => wordXYN 0xE x pad 0xE
  | .sknp x pad => wordXYN 0xE x pad 0x1
  | .ldVxDT x => wordXKK 0xF x 0x07
  | .ldVxK x => wordXKK 0xF x 0x0A
  | .ldDTVx x => wordXKK 0xF x 0x15
  | .ldSTVx x => wordXKK 0xF x 0x18
  | .addIVx x => wordXKK 0xF x 0x1E
  | .ldFVx x => wordXKK 0xF x 0x29
  | .ldBVx x => wordXKK 0xF x 0x33
  | .ldMemVx x => wordXKK 0xF x 0x55
  | .ldVxMem x => wordXKK 0xF x 0x65
  | .nop8 bits => wordNNN 0x8 bits
  | .nopE bits => wordNNN 0xE bits
  | .nopF bits => wordNNN 0xF bits

/-- The high byte of an opcode, stored at the lower address (R65). -/
def hiByte (op : Word) : Byte := op.extractLsb' 8 8

/-- The low byte of an opcode. -/
def loByte (op : Word) : Byte := op.extractLsb' 0 8

/-- The bytes of an instruction in memory order (R65, R104). -/
def encodeBytes (i : Instr) : List Byte := [hiByte (encode i), loByte (encode i)]

/-- The opcode that `spec/opcode_table.json` numbers `w` in a row of `nbits` bits. Every row has 16
bits and an instruction is one word, so the numbering is the opcode's own (R106). -/
def tableOpcode (nbits w : Nat) : Word := BitVec.ofNat 16 (w % 2 ^ nbits)

/-- The instruction the decoder reads from the bytes of the word that the opcode table numbers `w`. -/
def decodeTableWord (nbits w : Nat) : Option Instr :=
  match decode [hiByte (tableOpcode nbits w), loByte (tableOpcode nbits w)] with
  | .ok (i, _) => some i
  | .error _ => none

end Sys2Proof
end

