-- ==== Sys2Proof/Config.lean ====
section
/-! DEFINITION. What is fixed for the machine, and the free values of its inputs.

The implementation parameters are those of rule R5 (`00_scope.md`); every decision of
`92_eei_decisions.md` stands at its default (log 4). The modulus 4096 of addresses is written out as
a numeral where the rules write it. -/

namespace Sys2Proof

/-- The program load address and the reset value of the program counter (R5 `ENTRY`, R282). -/
abbrev Config.entry : Nat := 0x200

/-- The address of the first font byte (R5 `FONT_BASE`, R75). -/
abbrev Config.fontBase : Nat := 0x050

/-- The size of the largest program that LoadProgram takes (R5 `ROM_MAX`, R284). -/
abbrev Config.romMax : Nat := 3584

/-- FREE VALUE: the keypad levels the host presents for the `n`-th cycle when it has queued none.
Nothing constrains it (R261, `93_implementation_defined.md` U10; log 1, DESIGN CHOICE, safe). -/
opaque Config.freeKey : Nat → Word

/-- FREE VALUE: the random byte the host presents for the `n`-th cycle when it has queued none.
Nothing constrains it (R263, `93_implementation_defined.md` U7; log 1, DESIGN CHOICE, safe). -/
opaque Config.freeRnd : Nat → Byte

end Sys2Proof
end

