-- ==== Sys2Proof/Machine/State.lean ====
section
/-! DEFINITION. The state of the machine, its reset value, and the reasons an operation can stop. -/

namespace Sys2Proof.Machine

/-- The memory `MEM` (R60) as the list of the cells whose content differs from what the address
reads as when nothing has written it (`Memory.unlisted`): addresses strictly rising (log 3). -/
abbrev Memory := List Host.Cell

/-- The framebuffer `FB` (R30): 32 rows, row 0 on top; bit `x` of a row is the cell of column `x`,
1 = on (log 9). -/
abbrev Frame := Vector (BitVec 64) 32

/-- The three non-fatal anomalies (R251). -/
inductive Anomaly where
  /-- `SOVF`, StackOverflow: CALL with SP = 16 (R142). -/
  | sovf
  /-- `SUNF`, StackUnderflow: RET with SP = 0 (R140). -/
  | sunf
  /-- `OOB`, OutOfBoundsAccess: a memory address or a pc value of 4096 or more (R24, R63, R64). -/
  | oob
  deriving DecidableEq, Repr

/-- The sticky anomaly register `ANOM` (R33), one Boolean per bit. -/
structure Anom where
  /-- bit 0 -/
  sovf : Bool
  /-- bit 1 -/
  sunf : Bool
  /-- bit 2 -/
  oob : Bool
  deriving DecidableEq, Repr

/-- `ANOM = 0b000`. -/
def Anom.none : Anom := ⟨false, false, false⟩

/-- What the host presents for one cycle (R120): the keypad levels (R261) and a random byte (R263). -/
structure CycleInput where
  key : Word
  rnd : Byte
  deriving DecidableEq, Repr

/-- The state: the eleven items of R20, and four fields of the model's own that hold the host's side
of the interface (`rnd`, `inputs`, `inputNo`, `started`; logs 1, 2 and 7). -/
structure State where
  /-- general registers V0 to VF (R21) -/
  v : Vector Byte 16
  /-- program counter (R24) -/
  pc : Word
  /-- index register I (R25) -/
  idx : Word
  /-- call stack entries (R26) -/
  stack : Vector Word 16
  /-- stack pointer (R27) -/
  sp : BitVec 5
  /-- delay timer (R28) -/
  dt : Byte
  /-- sound timer (R29) -/
  st : Byte
  /-- memory (R60) -/
  mem : Memory
  /-- framebuffer (R30) -/
  fb : Frame
  /-- keypad latch (R31) -/
  key : Word
  /-- sticky anomaly bits (R33) -/
  anom : Anom
  /-- model's own: the random-byte input as sampled for this cycle (R263; log 2) -/
  rnd : Byte
  /-- model's own: what the host has presented for the cycles to come, oldest first (log 1) -/
  inputs : List CycleInput
  /-- model's own: the number of cycles that have taken their inputs (log 1) -/
  inputNo : Nat
  /-- model's own: a cycle has run since reset, so LoadProgram may no longer be used (R286; log 7) -/
  started : Bool
  deriving DecidableEq, Repr

/-- Why the machine stops. The hardware has no fault (R250), so no step raises one. -/
inductive Fault where
  /-- `RomTooLarge` (R252): answered by the host operation `loadProgram` for an image of more than
  3584 bytes, never by a step. The spec's own result, safe. -/
  | romTooLarge
  deriving DecidableEq, Repr

/-- What the model refuses. -/
inductive Refusal where
  /-- An instruction that has no meaning yet, refused in `exec`'s arm. No arm does. Safe. -/
  | notModelled (mnemonic : String)
  /-- LoadProgram after the first cycle, which the document leaves undefined (R286): answered by the
  host operation `loadProgram`, never by a step. Safe. -/
  | loadAfterFirstCycle
  deriving DecidableEq, Repr

/-- What executing one instruction, one cycle or one host operation answers. -/
abbrev Result := Host.Outcome State Fault Refusal

/-- The machine right after reset (R37, R280). Memory lists nothing: every byte is at its reset
content. The model's own fields are at the values of logs 1, 2 and 7. -/
def State.reset : State where
  v := Vector.replicate 16 0x00#8
  pc := BitVec.ofNat 16 Config.entry
  idx := 0x0000#16
  stack := Vector.replicate 16 0x0000#16
  sp := 0#5
  dt := 0x00#8
  st := 0x00#8
  mem := []
  fb := Vector.replicate 32 0#64
  key := 0x0000#16
  anom := Anom.none
  rnd := 0x00#8
  inputs := []
  inputNo := 0
  started := false

end Sys2Proof.Machine
end

