-- ==== Sys2Proof/Machine/Memory.lean ====
section
/-! DEFINITION. Memory as canonical data: what it reads as at reset, one byte read, one byte written. -/

namespace Sys2Proof.Machine

/-- The conventional CHIP-8 font, `FONT[0..79]`, glyphs 0 to 7 (R76). -/
def fontLow : List Byte :=
  [0xF0, 0x90, 0x90, 0x90, 0xF0] ++ [0x20, 0x60, 0x20, 0x20, 0x70] ++
  [0xF0, 0x10, 0xF0, 0x80, 0xF0] ++ [0xF0, 0x10, 0xF0, 0x10, 0xF0] ++
  [0x90, 0x90, 0xF0, 0x10, 0x10] ++ [0xF0, 0x80, 0xF0, 0x10, 0xF0] ++
  [0xF0, 0x80, 0xF0, 0x90, 0xF0] ++ [0xF0, 0x10, 0x20, 0x40, 0x40]

/-- Glyphs 8 to F (R76). -/
def fontHigh : List Byte :=
  [0xF0, 0x90, 0xF0, 0x90, 0xF0] ++ [0xF0, 0x90, 0xF0, 0x10, 0xF0] ++
  [0xF0, 0x90, 0xF0, 0x90, 0x90] ++ [0xE0, 0x90, 0xE0, 0x90, 0xE0] ++
  [0xF0, 0x80, 0x80, 0x80, 0xF0] ++ [0xE0, 0x90, 0x90, 0x90, 0xE0] ++
  [0xF0, 0x80, 0xF0, 0x80, 0xF0] ++ [0xF0, 0x80, 0xF0, 0x80, 0x80]

/-- `FONT[0..79]` (R76). -/
def font : List Byte := fontLow ++ fontHigh

/-- What an address that nothing has written reads as: its reset content, the font at 0x050 to 0x09F
and zero elsewhere (R37, R61; log 3). -/
def Memory.unlisted (addr : Nat) : Byte :=
  if Config.fontBase ≤ addr then font.getD (addr - Config.fontBase) 0x00 else 0x00

/-- The byte at an address. -/
def Memory.read : Memory → Nat → Byte
  | [], addr => Memory.unlisted addr
  | (a, b) :: m, addr => if a = addr then b else Memory.read m addr

/-- Drop the cell of an address. -/
def Memory.erase (m : Memory) (addr : Nat) : Memory := m.filter (fun c => c.1 != addr)

/-- Put a cell in front of the first one with a greater address. -/
def Memory.place (addr : Nat) (b : Byte) : Memory → Memory
  | [] => [(addr, b)]
  | c :: m => if addr < c.1 then (addr, b) :: c :: m else c :: Memory.place addr b m

/-- Store a byte at an address, keeping the canonical form: a byte equal to the unlisted content
removes the cell. -/
def Memory.write (m : Memory) (addr : Nat) (b : Byte) : Memory :=
  if b = Memory.unlisted addr then Memory.erase m addr
  else Memory.place addr b (Memory.erase m addr)

/-- Store bytes at consecutive addresses from `addr` up. -/
def Memory.writeAll (m : Memory) (addr : Nat) : List Byte → Memory
  | [] => m
  | b :: bs => Memory.writeAll (Memory.write m addr b) (addr + 1) bs

/-- The canonical form: addresses strictly rising and inside the 4096 cells, no cell equal to what
the address reads as when unlisted. -/
abbrev Memory.wf (m : Memory) : Prop :=
  m.Pairwise (fun c d => c.1 < d.1) ∧ ∀ c ∈ m, c.1 < 4096 ∧ c.2 ≠ Memory.unlisted c.1

end Sys2Proof.Machine
end

