-- ==== Sys2Proof/Machine/Ops.lean ====
section
/-! DEFINITION. The named operations over registers, memory, stack, framebuffer and the anomaly
register: the primitives of rule R8. -/

namespace Sys2Proof.Machine

/-! Anomalies. The hardware has no exception and no trap entry (R250, R256). What every unusual
condition does is this one operation. -/

/-- If `c`, set the sticky bit of an anomaly. Nothing else changes (R33, R251). -/
def note (a : Anomaly) (c : Bool) (s : State) : State :=
  match a with
  | .sovf => { s with anom := { s.anom with sovf := s.anom.sovf || c } }
  | .sunf => { s with anom := { s.anom with sunf := s.anom.sunf || c } }
  | .oob => { s with anom := { s.anom with oob := s.anom.oob || c } }

/-- Record an address or a pc value that lies outside 0 to 4095 (R63, R24). -/
def noteOob (v : Nat) (s : State) : State := note .oob (decide (4096 ≤ v)) s

/-! General registers (R21). -/

/-- `V[r]`. -/
def readReg (r : RegIx) (s : State) : Byte := s.v[r.toNat]'r.isLt

/-- `V[r] <- b`. -/
def writeReg (r : RegIx) (b : Byte) (s : State) : State :=
  { s with v := s.v.set r.toNat b r.isLt }

/-! Program counter and index register (R24, R25). -/

/-- `pc <- v`: stores `v mod 4096`, and sets `ANOM.OOB` when `v` is 4096 or more. -/
def writePc (v : Nat) (s : State) : State :=
  noteOob v { s with pc := BitVec.ofNat 16 (v % 4096) }

/-- `I <- v`: stores `v mod 65536`. -/
def writeIdx (v : Nat) (s : State) : State := { s with idx := BitVec.ofNat 16 v }

/-! Memory (R63, R64). -/

/-- The byte at `addr mod 4096`, without the record of an address out of range. -/
def byteAt (addr : Nat) (s : State) : Byte := Memory.read s.mem (addr % 4096)

/-- `MemRead(addr, 1)`. -/
def memRead (addr : Nat) (s : State) : Byte × State := (byteAt addr s, noteOob addr s)

/-- `MemWrite(addr, 1, b)`. -/
def memWrite (addr : Nat) (b : Byte) (s : State) : State :=
  noteOob addr { s with mem := Memory.write s.mem (addr % 4096) b }

/-- `MemWrite(base + k, 1, V[k])` for `k` from 0 up to `count - 1`, ascending (R194). -/
def storeRegs (base : Nat) : Nat → State → State
  | 0, s => s
  | k + 1, s => memWrite (base + k) (readReg (BitVec.ofNat 4 k) s) (storeRegs base k s)

/-- `V[k] <- MemRead(base + k, 1)` for `k` from 0 up to `count - 1`, ascending (R195). -/
def loadRegs (base : Nat) : Nat → State → State
  | 0, s => s
  | k + 1, s =>
    let r := memRead (base + k) (loadRegs base k s)
    writeReg (BitVec.ofNat 4 k) r.1 r.2

/-! Call stack (R26, R27). -/

/-- `STACK[k]`. -/
def stackEntry (k : BitVec 4) (s : State) : Word := s.stack[k.toNat]'k.isLt

/-- Push the program counter. With 16 entries in use the push and the increment are suppressed and
`ANOM.SOVF` is set (R142). -/
def pushPc (s : State) : State :=
  if s.sp.toNat < 16 then
    { s with
      stack := s.stack.set (s.sp.setWidth 4).toNat s.pc (s.sp.setWidth 4).isLt
      sp := s.sp + 1 }
  else note .sovf true s

/-- Pop the top entry into the program counter; the entry keeps its value. With no entry in use
nothing changes but `ANOM.SUNF` (R140). -/
def popPc (s : State) : State :=
  if 0 < s.sp.toNat then
    writePc (stackEntry ((s.sp - 1).setWidth 4) s).toNat { s with sp := s.sp - 1 }
  else note .sunf true s

/-! Skip (R148). -/

/-- If `c`, `pc <- pc + 2`; otherwise nothing is written. -/
def skipIf (c : Bool) (s : State) : State :=
  if c then writePc (s.pc.toNat + 2) s else s

/-! Framebuffer (R30, R73). -/

/-- `FB[x, y]`: the cell at column `x`, row `y`. Off outside the 64 by 32 grid, which no rule reads. -/
def Frame.cell (f : Frame) (x y : Nat) : Bool :=
  if h : y < 32 then (f[y]'h).getLsbD x else false

/-- `FB[x, y]` of a state. -/
def pixel (x y : Nat) (s : State) : Bool := Frame.cell s.fb x y

/-- Every cell off (R210). -/
def clearFrame (s : State) : State := { s with fb := Vector.replicate 32 0#64 }

/-- The drawn cells of one sprite row at column `x0`: bit 7 of the byte is column `x0`, bit 0 column
`x0 + 7` (R214), and columns of 64 and more are dropped (R213). -/
def spriteRow (b : Byte) (x0 : Nat) : BitVec 64 := (b.reverse.setWidth 64) <<< x0

/-- Some drawn bit of the sprite row lands on a cell that is on (R215); never in a row of 32 or more,
which is not drawn (R213). -/
def rowHits (b : Byte) (x0 y : Nat) (f : Frame) : Bool :=
  if h : y < 32 then (f[y]'h) &&& spriteRow b x0 != 0#64 else false

/-- XOR one sprite row into the frame at row `y`; a row of 32 or more is not drawn (R213). -/
def plotRow (b : Byte) (x0 y : Nat) (f : Frame) : Frame :=
  if h : y < 32 then f.set y ((f[y]'h) ^^^ spriteRow b x0) h else f

/-- Draw the first `count` rows of the sprite at `base`, top row first, with origin `(x0, y0)`: the
collision so far and the state. Every row is read, clipped or not (R211, R213). -/
def drawRows (base x0 y0 : Nat) : Nat → State → Bool × State
  | 0, s => (false, s)
  | row + 1, s =>
    let p := drawRows base x0 y0 row s
    let r := memRead (base + row) p.2
    (p.1 || rowHits r.1 x0 (y0 + row) r.2.fb,
      { r.2 with fb := plotRow r.1 x0 (y0 + row) r.2.fb })

end Sys2Proof.Machine
end

