-- ==== Sys2Proof/Machine/Operands.lean ====
section
/-! DEFINITION. The operand forms (rules R101, R196, R212, R236): how an instruction's operand bits
become addresses, coordinates, key numbers and digits. Register operands are `readReg`. -/

namespace Sys2Proof.Machine

/-- The absolute target or value of a 12-bit immediate, zero-extended (R101). -/
def immAddr (nnn : BitVec 12) : Nat := nnn.toNat

/-- The unreduced effective address `I + k` of the one data addressing mode (R196). -/
def indexAddr (k : Nat) (s : State) : Nat := s.idx.toNat + k

/-- The target `V0 + nnn` of the indexed jump, unreduced (R147). -/
def indexedTarget (nnn : BitVec 12) (s : State) : Nat := (readReg 0#4 s).toNat + nnn.toNat

/-- The glyph address of the hex digit in the low nibble of a register (R192). -/
def glyphAddr (b : Byte) : Nat := Config.fontBase + 5 * (b.toNat % 16)

/-- The hundreds digit of a byte (R193). -/
def hundreds (b : Byte) : Byte := BitVec.ofNat 8 (b.toNat / 100)

/-- The tens digit of a byte (R193). -/
def tens (b : Byte) : Byte := BitVec.ofNat 8 (b.toNat / 10 % 10)

/-- The ones digit of a byte (R193). -/
def ones (b : Byte) : Byte := BitVec.ofNat 8 (b.toNat % 10)

/-- The column of a sprite's origin (R212). -/
def originX (b : Byte) : Nat := b.toNat % 64

/-- The row of a sprite's origin (R212). -/
def originY (b : Byte) : Nat := b.toNat % 32

/-- The number of registers a bulk transfer up to `Vx` moves (R194, R195). -/
def bulkCount (x : RegIx) : Nat := x.toNat + 1

/-- `KEY[b[3:0]]`: whether the key in the low nibble of a register is down (R236). -/
def keyDown (b : Byte) (s : State) : Bool := s.key.getLsbD (b.toNat % 16)

/-- The lowest key number from `16 - fuel` up that is down, if any. -/
def lowestKeyFrom (key : Word) : Nat → Option Nat
  | 0 => none
  | fuel + 1 => if key.getLsbD (15 - fuel) then some (15 - fuel) else lowestKeyFrom key fuel

/-- The lowest-numbered key that is down, if any (R233). -/
def lowestKey (key : Word) : Option Nat := lowestKeyFrom key 16

end Sys2Proof.Machine
end

