-- ==== Sys2Proof/Machine/Flags.lean ====
section
/-! DEFINITION. The values that `VF` receives (rules R22, R172) and the order of the flag and the
result (R173). -/

namespace Sys2Proof.Machine

/-- A condition as a flag value, 1 or 0. -/
def flag (c : Bool) : Byte := if c then 0x01 else 0x00

/-- Carry out of an addition: 1 if the unsigned sum exceeds 255 (R166). -/
def carryFlag (a b : Byte) : Byte := flag (decide (255 < a.toNat + b.toNat))

/-- Not borrow of `a - b`: 1 if the minuend is at least the subtrahend (R167, R169). -/
def noBorrowFlag (a b : Byte) : Byte := flag (decide (b.toNat ≤ a.toNat))

/-- The bit a right shift moves out (R168). -/
def shrFlag (a : Byte) : Byte := flag (a.getLsbD 0)

/-- The bit a left shift moves out (R170). -/
def shlFlag (a : Byte) : Byte := flag (a.getLsbD 7)

/-- `VF <- f`, then `Vx <- r` (R173): with `x = 15` the result is what remains. -/
def writeFlagThenResult (x : RegIx) (f r : Byte) (s : State) : State :=
  writeReg x r (writeReg vf f s)

end Sys2Proof.Machine
end

