-- ==== Sys2Proof/Machine/Alu.lean ====
section
/-! DEFINITION. Register loads, arithmetic, logic, shifts and the random instruction (`42_alu.md`). -/

namespace Sys2Proof.Machine

/-- LD Vx, kk (R160). -/
def execLdImm (x : RegIx) (kk : Byte) (s : State) : Result := .next (writeReg x kk s)

/-- ADD Vx, kk (R161): no flag. -/
def execAddImm (x : RegIx) (kk : Byte) (s : State) : Result :=
  .next (writeReg x (readReg x s + kk) s)

/-- LD Vx, Vy (R162). -/
def execLdReg (x y : RegIx) (s : State) : Result := .next (writeReg x (readReg y s) s)

/-- OR Vx, Vy (R163): `VF` is not reset (R174). -/
def execOrReg (x y : RegIx) (s : State) : Result :=
  .next (writeReg x (readReg x s ||| readReg y s) s)

/-- AND Vx, Vy (R164). -/
def execAndReg (x y : RegIx) (s : State) : Result :=
  .next (writeReg x (readReg x s &&& readReg y s) s)

/-- XOR Vx, Vy (R165). -/
def execXorReg (x y : RegIx) (s : State) : Result :=
  .next (writeReg x (readReg x s ^^^ readReg y s) s)

/-- ADD Vx, Vy (R166): carry to `VF`, then the low byte of the sum to `Vx`. -/
def execAddReg (x y : RegIx) (s : State) : Result :=
  let a := readReg x s
  let b := readReg y s
  .next (writeFlagThenResult x (carryFlag a b) (a + b) s)

/-- SUB Vx, Vy (R167): not borrow to `VF`, then `Vx - Vy` to `Vx`. -/
def execSubReg (x y : RegIx) (s : State) : Result :=
  let a := readReg x s
  let b := readReg y s
  .next (writeFlagThenResult x (noBorrowFlag a b) (a - b) s)

/-- SHR Vx (R168): in place, `Vy` is not read. -/
def execShr (x : RegIx) (s : State) : Result :=
  let a := readReg x s
  .next (writeFlagThenResult x (shrFlag a) (a >>> 1) s)

/-- SUBN Vx, Vy (R169): not borrow to `VF`, then `Vy - Vx` to `Vx`. -/
def execSubnReg (x y : RegIx) (s : State) : Result :=
  let a := readReg x s
  let b := readReg y s
  .next (writeFlagThenResult x (noBorrowFlag b a) (b - a) s)

/-- SHL Vx (R170): in place, `Vy` is not read. -/
def execShl (x : RegIx) (s : State) : Result :=
  let a := readReg x s
  .next (writeFlagThenResult x (shlFlag a) (a <<< 1) s)

/-- RND Vx, kk (R171): the random byte of this cycle under the mask. -/
def execRnd (x : RegIx) (kk : Byte) (s : State) : Result :=
  .next (writeReg x (s.rnd &&& kk) s)

end Sys2Proof.Machine
end

