-- ==== Sys2Proof/Machine/Display.lean ====
section
/-! DEFINITION. Clear and draw (`44_display.md`). -/

namespace Sys2Proof.Machine

/-- CLS (R210). -/
def execCls (s : State) : Result := .next (clearFrame s)

/-- DRW Vx, Vy, n (R211): the coordinates are read before `VF` is written, `VF` receives the collision
once, after all rows. -/
def execDrw (x y : RegIx) (n : BitVec 4) (s : State) : Result :=
  let p := drawRows (indexAddr 0 s) (originX (readReg x s)) (originY (readReg y s)) n.toNat s
  .next (writeReg vf (flag p.1) p.2)

end Sys2Proof.Machine
end

