-- ==== Sys2Proof/Machine/Flow.lean ====
section
/-! DEFINITION. Control transfer (`41_flow.md`). On entry `pc` is already the address of the following
instruction (R122). -/

namespace Sys2Proof.Machine

/-- RET (R140). -/
def execRet (s : State) : Result := .next (popPc s)

/-- JP nnn (R141). -/
def execJp (nnn : BitVec 12) (s : State) : Result := .next (writePc (immAddr nnn) s)

/-- CALL nnn (R142): the jump is taken whether or not the push was suppressed. -/
def execCall (nnn : BitVec 12) (s : State) : Result :=
  .next (writePc (immAddr nnn) (pushPc s))

/-- SE Vx, kk (R143). -/
def execSeImm (x : RegIx) (kk : Byte) (s : State) : Result :=
  .next (skipIf (readReg x s == kk) s)

/-- SNE Vx, kk (R144). -/
def execSneImm (x : RegIx) (kk : Byte) (s : State) : Result :=
  .next (skipIf (readReg x s != kk) s)

/-- SE Vx, Vy (R145). -/
def execSeReg (x y : RegIx) (s : State) : Result :=
  .next (skipIf (readReg x s == readReg y s) s)

/-- SNE Vx, Vy (R146). -/
def execSneReg (x y : RegIx) (s : State) : Result :=
  .next (skipIf (readReg x s != readReg y s) s)

/-- JP V0, nnn (R147). -/
def execJpV0 (nnn : BitVec 12) (s : State) : Result := .next (writePc (indexedTarget nnn s) s)

end Sys2Proof.Machine
end

