-- ==== Sys2Proof/Machine/Index.lean ====
section
/-! DEFINITION. Index register and memory instructions (`43_index_memory.md`). No load or store changes
`I` (R196). -/

namespace Sys2Proof.Machine

/-- LD I, nnn (R190). -/
def execLdI (nnn : BitVec 12) (s : State) : Result := .next (writeIdx (immAddr nnn) s)

/-- ADD I, Vx (R191): modulo 65536, no flag and no anomaly. -/
def execAddIVx (x : RegIx) (s : State) : Result :=
  .next (writeIdx (s.idx.toNat + (readReg x s).toNat) s)

/-- LD F, Vx (R192). -/
def execLdFVx (x : RegIx) (s : State) : Result := .next (writeIdx (glyphAddr (readReg x s)) s)

/-- LD B, Vx (R193): hundreds, tens and ones at `I`, `I + 1`, `I + 2`. -/
def execLdBVx (x : RegIx) (s : State) : Result :=
  let b := readReg x s
  .next (memWrite (indexAddr 2 s) (ones b)
    (memWrite (indexAddr 1 s) (tens b) (memWrite (indexAddr 0 s) (hundreds b) s)))

/-- LD [I], Vx (R194): `V0` to `Vx` to memory from `I` up. -/
def execLdMemVx (x : RegIx) (s : State) : Result :=
  .next (storeRegs (indexAddr 0 s) (bulkCount x) s)

/-- LD Vx, [I] (R195): memory from `I` up to `V0` to `Vx`. -/
def execLdVxMem (x : RegIx) (s : State) : Result :=
  .next (loadRegs (indexAddr 0 s) (bulkCount x) s)

end Sys2Proof.Machine
end

