-- ==== Sys2Proof/Machine/KeypadTimers.lean ====
section
/-! DEFINITION. Keypad and timer instructions (`45_keypad_timers.md`). `KEY` is the keypad as latched at
the start of the cycle (R125). -/

namespace Sys2Proof.Machine

/-- SKP Vx (R230). -/
def execSkp (x : RegIx) (s : State) : Result := .next (skipIf (keyDown (readReg x s) s) s)

/-- SKNP Vx (R231). -/
def execSknp (x : RegIx) (s : State) : Result := .next (skipIf (!(keyDown (readReg x s) s)) s)

/-- LD Vx, DT (R232): the value before this cycle's decay. -/
def execLdVxDT (x : RegIx) (s : State) : Result := .next (writeReg x s.dt s)

/-- Step `pc` back by 2, modulo 4096, to the fetch address: the block of LD Vx, K (R233). -/
def holdPc (s : State) : State := writePc ((s.pc - 2).toNat % 4096) s

/-- What LD Vx, K does to the state: with no key down the instruction is run again next cycle;
otherwise `Vx` receives the lowest-numbered key that is down (R233). -/
def waitKey (x : RegIx) (s : State) : State :=
  match lowestKey s.key with
  | none => holdPc s
  | some k => writeReg x (BitVec.ofNat 8 k) s

/-- LD Vx, K (R233). -/
def execLdVxK (x : RegIx) (s : State) : Result := .next (waitKey x s)

/-- LD DT, Vx (R234). -/
def execLdDTVx (x : RegIx) (s : State) : Result := .next { s with dt := readReg x s }

/-- LD ST, Vx (R235). -/
def execLdSTVx (x : RegIx) (s : State) : Result := .next { s with st := readReg x s }

end Sys2Proof.Machine
end

