-- ==== Sys2Proof/Machine/NoOps.lean ====
section
/-! DEFINITION. The four no-op handlers (rule R127): unmapped words of families 0, 8, E and F. The
cycle around them still advances `pc` and decays the timers. -/

namespace Sys2Proof.Machine

/-- SYS nnn: the family-0 no-op; it does not call or jump to `nnn`. -/
def execSys (s : State) : Result := .next s

/-- NOP8: the family-8 no-op. -/
def execNop8 (s : State) : Result := .next s

/-- NOPE: the family-E no-op. -/
def execNopE (s : State) : Result := .next s

/-- NOPF: the family-F no-op. -/
def execNopF (s : State) : Result := .next s

end Sys2Proof.Machine
end

