-- ==== Sys2Proof/Machine/Cycle.lean ====
section
/-! DEFINITION. The cycle (`40_cycle.md`): latch, fetch, advance, decode, execute, decay; and how a
cycle gets its two inputs. -/

namespace Sys2Proof.Machine

/-- Step 0 (R125, R263): latch the keypad and sample the random byte. The load window closes (R285). -/
def latch (inp : CycleInput) (s : State) : State :=
  { s with key := inp.key, rnd := inp.rnd, started := true }

/-- The two bytes that the fetch at the program counter reads, as an opcode (R65, R121). -/
def wordAtPc (s : State) : Word :=
  opcodeOf (byteAt s.pc.toNat s) (byteAt (s.pc.toNat + 1) s)

/-- Step 1 (R121): the opcode, and the state after the two reads. -/
def fetch (s : State) : Word × State :=
  let hi := memRead s.pc.toNat s
  let lo := memRead (s.pc.toNat + 1) hi.2
  (opcodeOf hi.1 lo.1, lo.2)

/-- Step 2 (R122): `pc <- a + 2`, before execution. -/
def advance (s : State) : State := writePc (s.pc.toNat + 2) s

/-- One count of a timer: down by 1 while it is not zero (R126). -/
def countDown (t : Byte) : Byte := if 0 < t.toNat then t - 1 else t

/-- Step 5 (R126): both timers decay, independently. -/
def decay (s : State) : State := { s with dt := countDown s.dt, st := countDown s.st }

/-- The state in which step 4 of a cycle begins. -/
def enter (inp : CycleInput) (s : State) : State := advance (fetch (latch inp s)).2

/-- Step 5 after whatever step 4 answers. -/
def thenDecay : Result → Result
  | .next s => .next (decay s)
  | .fault r => .fault r
  | .refused r => .refused r

/-- One Cycle with its inputs (R120). -/
def cycle (inp : CycleInput) (s : State) : Result :=
  thenDecay (exec (decodeWord (fetch (latch inp s)).1) (enter inp s))

/-- What the host presents for the next cycle: the oldest queued pair, or free values when it has
queued none (log 1). -/
def nextInput (s : State) : CycleInput :=
  match s.inputs with
  | p :: _ => p
  | [] => { key := Config.freeKey s.inputNo, rnd := Config.freeRnd s.inputNo }

/-- The pair is taken from the queue and the cycle counted (log 1). -/
def takeInput (s : State) : State :=
  { s with inputs := s.inputs.tail, inputNo := s.inputNo + 1 }

/-- The next cycle, with what the host presents for it. -/
def nextCycle (s : State) : Result := cycle (nextInput s) (takeInput s)

end Sys2Proof.Machine
end

