-- ==== Sys2Proof/Machine/Step.lean ====
section
/-! DEFINITION. One step of the machine is one Cycle (R120). -/

namespace Sys2Proof.Machine

/-- One step. -/
def step (s : State) : Host.Outcome State Fault Refusal := nextCycle s

/-- The state with the opcode of the table word `w` stored where the next step fetches: its high byte
at `pc`, its low byte at `pc + 1` (R65, R121). -/
def State.withFetchWord (s : State) (nbits w : Nat) : State :=
  { s with
    mem := Memory.write
      (Memory.write s.mem (s.pc.toNat % 4096) (hiByte (tableOpcode nbits w)))
      ((s.pc.toNat + 1) % 4096) (loByte (tableOpcode nbits w)) }

end Sys2Proof.Machine
end

