-- ==== Sys2Proof/Machine/HostOps.lean ====
section
/-! DEFINITION. What the host can do to the machine besides triggering a cycle (rules R11, R264), and
what it can read (R39, R262). -/

namespace Sys2Proof.Machine

/-- Reset (R280, R281): every item of R20 at its reset value, whatever it held. The host's own queue of
inputs and its count are not state of the core and stay (log 10). -/
def hostReset (s : State) : State :=
  { State.reset with inputs := s.inputs, inputNo := s.inputNo }

/-- LoadProgram (R284): bytes verbatim from 0x200 up; `RomTooLarge` for more than 3584 bytes, with no
change of state; refused after the first cycle (R286). -/
def loadProgram (bytes : List Byte) (s : State) : Result :=
  if s.started then .refused .loadAfterFirstCycle
  else if Config.romMax < bytes.length then .fault .romTooLarge
  else .next { s with mem := Memory.writeAll s.mem Config.entry bytes }

/-- The host presents a pair of inputs for a cycle to come (R120, R261, R263). -/
def present (inp : CycleInput) (s : State) : State := { s with inputs := s.inputs ++ [inp] }

/-- The framebuffer read port: the cell of linear index `y * 64 + x` (R262, R264). -/
def fbBit (n : Nat) (s : State) : Bool := pixel (n % 64) (n / 64) s

/-- `ANOM` as the host reads it: bit 0 SOVF, bit 1 SUNF, bit 2 OOB (R33). -/
def anomBits (s : State) : BitVec 3 :=
  BitVec.ofBool s.anom.oob ++ BitVec.ofBool s.anom.sunf ++ BitVec.ofBool s.anom.sovf

/-- The optional tone indication `ST ≠ 0` (R29, R264). -/
def soundOn (s : State) : Bool := s.st != 0x00

end Sys2Proof.Machine
end

