-- ==== Sys2Proof/Safety.lean ====
section
/-! DEFINITION. What counts as a good state and a clean run, and the vocabulary in which claims say what
an instruction leaves unchanged. -/

namespace Sys2Proof.Machine

/-- The invariant of rule R36 (with R26): `pc` in 0 to 4095, `SP` in 0 to 16, every stack entry in 0 to
4095, memory in canonical form. That there are 16 registers and 4096 bytes is a fact of the types. -/
abbrev State.Inv (s : State) : Prop :=
  s.pc.toNat < 4096 ∧ s.sp.toNat ≤ 16 ∧ (∀ k : Fin 16, s.stack[k.val].toNat < 4096) ∧
    Memory.wf s.mem

/-- No anomaly has happened since reset: the bits are sticky (R268). -/
abbrev State.Clean (s : State) : Prop := s.anom = Anom.none

/-- Blocked (R34): the word at `pc` is LD Vx, K and no key is down in `key`. -/
abbrev State.Blocked (key : Word) (s : State) : Prop :=
  (∃ x : RegIx, decodeWord (wordAtPc s) = .ldVxK x) ∧ key = 0x0000#16

/-- The cycles under a stated sequence of inputs (R12), stopping at the first that is not a next
state. -/
def runInputs : List CycleInput → State → Result
  | [], s => .next s
  | inp :: rest, s =>
    match cycle inp s with
    | .next t => runInputs rest t
    | .fault r => .fault r
    | .refused r => .refused r

/-! Frames. -/

/-- Every general register but those listed is unchanged. -/
def OnlyRegs (rs : List RegIx) (s t : State) : Prop :=
  ∀ r : RegIx, r ∉ rs → readReg r t = readReg r s

/-- The parts of the state other than the general registers and the inputs. -/
inductive Part where
  | pc | idx | stack | dt | st | mem | fb | sovf | sunf | oob
  deriving DecidableEq, Repr

/-- A part is unchanged. Memory is compared byte by byte, the framebuffer cell by cell. -/
def Keeps (p : Part) (s t : State) : Prop :=
  match p with
  | .pc => t.pc = s.pc
  | .idx => t.idx = s.idx
  | .stack => t.sp = s.sp ∧ ∀ k : BitVec 4, stackEntry k t = stackEntry k s
  | .dt => t.dt = s.dt
  | .st => t.st = s.st
  | .mem => ∀ a : Nat, byteAt a t = byteAt a s
  | .fb => ∀ x y : Nat, pixel x y t = pixel x y s
  | .sovf => t.anom.sovf = s.anom.sovf
  | .sunf => t.anom.sunf = s.anom.sunf
  | .oob => t.anom.oob = s.anom.oob

/-- The inputs as latched, and the host's side of the interface, are unchanged. No instruction writes
them (R31, R129). -/
def SameInputs (s t : State) : Prop :=
  t.key = s.key ∧ t.rnd = s.rnd ∧ t.inputs = s.inputs ∧ t.inputNo = s.inputNo ∧
    t.started = s.started

/-- Every part but those listed is unchanged, and so are the inputs. -/
def KeepsAllBut (ps : List Part) (s t : State) : Prop :=
  SameInputs s t ∧ ∀ p : Part, p ∉ ps → Keeps p s t

/-- What a skip does (R148), given the condition: `pc` forward by 2 modulo 4096, with OOB set when the
sum reaches 4096; nothing at all when the condition fails. -/
def SkipEffect (c : Prop) (s t : State) : Prop :=
  (c → t.pc.toNat = (s.pc.toNat + 2) % 4096 ∧
    t.anom.oob = (s.anom.oob || decide (4096 ≤ s.pc.toNat + 2))) ∧
  (¬c → t.pc = s.pc ∧ t.anom.oob = s.anom.oob) ∧
  OnlyRegs [] s t ∧ KeepsAllBut [.pc, .oob] s t

/-- The cell at column `px`, row `py` is a drawn pixel of DRW Vx, Vy, n: inside the screen, inside the
sprite, and its sprite bit is 1 (R211 to R214). -/
abbrev SpriteDraws (x y : RegIx) (n : BitVec 4) (s : State) (px py : Nat) : Prop :=
  px < 64 ∧ py < 32 ∧
  (readReg x s).toNat % 64 ≤ px ∧ px < (readReg x s).toNat % 64 + 8 ∧
  (readReg y s).toNat % 32 ≤ py ∧ py < (readReg y s).toNat % 32 + n.toNat ∧
  (byteAt (s.idx.toNat + (py - (readReg y s).toNat % 32)) s).getLsbD
    (7 - (px - (readReg x s).toNat % 64)) = true

/-- The words that no handler but a no-op takes (R99, R127). -/
def IsNoOpWord (w : Word) : Prop :=
  (famOf w = 0x0 ∧ nOf w ∉ [0x0, 0xE]) ∨
  (famOf w = 0x8 ∧ nOf w ∈ [0x8, 0x9, 0xA, 0xB, 0xC, 0xD, 0xF]) ∨
  (famOf w = 0xE ∧ nOf w ∉ [0x1, 0xE]) ∨
  (famOf w = 0xF ∧ kkOf w ∉ [0x07, 0x0A, 0x15, 0x18, 0x1E, 0x29, 0x33, 0x55, 0x65])

/-- The general registers an instruction writes: the write rows of the table of R23. -/
def Instr.regsWritten : Instr → List RegIx
  | .ldImm x _ | .addImm x _ | .ldReg x _ | .orReg x _ | .andReg x _ | .xorReg x _
  | .rnd x _ | .ldVxDT x | .ldVxK x => [x]
  | .addReg x _ | .subReg x _ | .shr x _ | .subnReg x _ | .shl x _ => [x, vf]
  | .drw _ _ _ => [vf]
  | .ldVxMem x => (List.range (x.toNat + 1)).map (BitVec.ofNat 4)
  | .sys _ | .cls _ | .ret _ | .jp _ | .call _ | .seImm _ _ | .sneImm _ _ | .seReg _ _ _
  | .sneReg _ _ _ | .ldI _ | .jpV0 _ | .skp _ _ | .sknp _ _ | .ldDTVx _ | .ldSTVx _
  | .addIVx _ | .ldFVx _ | .ldBVx _ | .ldMemVx _ | .nop8 _ | .nopE _ | .nopF _ => []

/-- The other parts of the state an instruction may write: `pc` (R24), `I` (R25), the stack (R26,
R27), the timers (R28, R29), the framebuffer (R30), memory (R67) and the anomaly bits (R33, R251). -/
def Instr.partsWritten : Instr → List Part
  | .cls _ => [.fb]
  | .ret _ => [.pc, .stack, .sunf, .oob]
  | .jp _ => [.pc]
  | .call _ => [.pc, .stack, .sovf]
  | .seImm _ _ | .sneImm _ _ | .seReg _ _ _ | .sneReg _ _ _ | .skp _ _ | .sknp _ _ => [.pc, .oob]
  | .jpV0 _ => [.pc, .oob]
  | .drw _ _ _ => [.fb, .oob]
  | .ldVxK _ => [.pc]
  | .ldDTVx _ => [.dt]
  | .ldSTVx _ => [.st]
  | .ldI _ | .addIVx _ | .ldFVx _ => [.idx]
  | .ldBVx _ | .ldMemVx _ => [.mem, .oob]
  | .ldVxMem _ => [.oob]
  | .sys _ | .ldImm _ _ | .addImm _ _ | .ldReg _ _ | .orReg _ _ | .andReg _ _ | .xorReg _ _
  | .addReg _ _ | .subReg _ _ | .shr _ _ | .subnReg _ _ | .shl _ _ | .rnd _ _ | .ldVxDT _
  | .nop8 _ | .nopE _ | .nopF _ => []

/-- Whether the instruction reads the keypad latch (R31, R129). -/
def Instr.readsKey : Instr → Bool
  | .skp _ _ | .sknp _ _ | .ldVxK _ => true
  | _ => false

/-- Whether the instruction reads the random-byte input (R129, R171). -/
def Instr.readsRnd : Instr → Bool
  | .rnd _ _ => true
  | _ => false

/-- The table of R24: `pc` after a cycle that fetched `i` at address `a` with keypad `key`, from the
registers and the stack before it. -/
def pcAfter (i : Instr) (key : Word) (a : Nat) (s : State) : Nat :=
  let plain := (a + 2) % 4096
  let skip := (a + 4) % 4096
  match i with
  | .jp nnn | .call nnn => nnn.toNat
  | .ret _ =>
    if 0 < s.sp.toNat then (stackEntry (BitVec.ofNat 4 (s.sp.toNat - 1)) s).toNat else plain
  | .jpV0 nnn => ((readReg 0#4 s).toNat + nnn.toNat) % 4096
  | .seImm x kk => if readReg x s = kk then skip else plain
  | .sneImm x kk => if readReg x s ≠ kk then skip else plain
  | .seReg x y _ => if readReg x s = readReg y s then skip else plain
  | .sneReg x y _ => if readReg x s ≠ readReg y s then skip else plain
  | .skp x _ => if key.getLsbD ((readReg x s).toNat % 16) = true then skip else plain
  | .sknp x _ => if key.getLsbD ((readReg x s).toNat % 16) = false then skip else plain
  | .ldVxK _ => if key = 0x0000 then a else plain
  | _ => plain

/-- Two states are equal but for `ANOM`. -/
def EqButAnom (s t : State) : Prop := t = { s with anom := t.anom }

/-- Two answers are the same but for `ANOM`. -/
def AnswersEqButAnom : Result → Result → Prop
  | .next s, .next t => EqButAnom s t
  | .fault a, .fault b => a = b
  | .refused a, .refused b => a = b
  | _, _ => False

end Sys2Proof.Machine
end

