-- ==== Sys2Proof/Certificates/Slice0/Obligations.lean ====
section
/-! DEFINITION. The statements for the provers. Frames are said with the vocabulary of
`Sys2Proof/Safety.lean`: `OnlyRegs rs` (every general register but those of `rs` is unchanged) and
`KeepsAllBut ps` (every other part of the state but those of `ps` is unchanged: memory byte by byte,
the framebuffer cell by cell). An instruction is executed with `pc` already advanced (R122), so a
statement about `exec` speaks of the advanced `pc`.

A clause `decodeWord w = i` rests on the opcode table: the opcode numbers and field positions that the
spec takes from general knowledge (R91, R102, decisions D2 to D4; log 4). Where another clause rests on
a decision `D<n>` of the spec, its docstring names it, and OBLIGATIONS.json has it as derived.

`rnd`, `inputs`, `inputNo` and `started` are fields of the model's own (logs 1, 2 and 7). Frames say of
them, too, that an instruction leaves them alone. -/

open Sys2Proof Sys2Proof.Machine

/-! Encoding. -/

/-- Decode after encode, every well-formed instruction, every operand and every ignored bit. -/
def Obligations.DecodeOfEncodeIsIdentity : Prop :=
  ∀ i : Instr, i.wellFormed = true →
    decodeWord (encode i) = i ∧ decode (encodeBytes i) = .ok (i, [])

/-- Encode after decode, all 65536 words (R100: decoding is total). -/
def Obligations.EncodeOfDecodeIsIdentity : Prop :=
  ∀ w : Word, (decodeWord w).wellFormed = true ∧ encode (decodeWord w) = w

/-- Words written out from the patterns of R102. -/
def Obligations.WrittenOutWordsDecode : Prop :=
  decodeWord 0b0000000011100000 = .cls 0x0E ∧
  decodeWord 0b0000000011101110 = .ret 0x0E ∧
  decodeWord 0b0010001000010000 = .call 0x210 ∧
  decodeWord 0b0110000000000101 = .ldImm 0x0 0x05 ∧
  decodeWord 0b1000000100100100 = .addReg 0x1 0x2 ∧
  decodeWord 0b1011001100000000 = .jpV0 0x300 ∧
  decodeWord 0b1101000000010101 = .drw 0x0 0x1 0x5 ∧
  decodeWord 0b1110010110011110 = .skp 0x5 0x9 ∧
  decodeWord 0b1111000100001010 = .ldVxK 0x1 ∧
  decodeWord 0b1111001001010101 = .ldMemVx 0x2

/-- R94: family 0 is dispatched on the low nibble only (the numbers: decisions D2, D3). -/
def Obligations.FamilyZeroDispatch : Prop :=
  ∀ w : Word, famOf w = 0x0 →
    (nOf w = 0x0 → decodeWord w = .cls (midOf w)) ∧
    (nOf w = 0xE → decodeWord w = .ret (midOf w)) ∧
    (nOf w ≠ 0x0 → nOf w ≠ 0xE → decodeWord w = .sys (nnnOf w))

/-- R95: family 8 is dispatched on the low nibble (the numbers: decision D3). -/
def Obligations.FamilyEightDispatch : Prop :=
  ∀ w : Word, famOf w = 0x8 →
    (nOf w = 0x0 → decodeWord w = .ldReg (xOf w) (yOf w)) ∧
    (nOf w = 0x1 → decodeWord w = .orReg (xOf w) (yOf w)) ∧
    (nOf w = 0x2 → decodeWord w = .andReg (xOf w) (yOf w)) ∧
    (nOf w = 0x3 → decodeWord w = .xorReg (xOf w) (yOf w)) ∧
    (nOf w = 0x4 → decodeWord w = .addReg (xOf w) (yOf w)) ∧
    (nOf w = 0x5 → decodeWord w = .subReg (xOf w) (yOf w)) ∧
    (nOf w = 0x6 → decodeWord w = .shr (xOf w) (yOf w)) ∧
    (nOf w = 0x7 → decodeWord w = .subnReg (xOf w) (yOf w)) ∧
    (nOf w = 0xE → decodeWord w = .shl (xOf w) (yOf w)) ∧
    (nOf w ∈ [0x8#4, 0x9, 0xA, 0xB, 0xC, 0xD, 0xF] → decodeWord w = .nop8 (nnnOf w))

/-- R96: family E is dispatched on the low nibble only (the numbers: decisions D2, D3). -/
def Obligations.FamilyEDispatch : Prop :=
  ∀ w : Word, famOf w = 0xE →
    (nOf w = 0xE → decodeWord w = .skp (xOf w) (yOf w)) ∧
    (nOf w = 0x1 → decodeWord w = .sknp (xOf w) (yOf w)) ∧
    (nOf w ≠ 0xE → nOf w ≠ 0x1 → decodeWord w = .nopE (nnnOf w))

/-- R97: family F is dispatched on the whole low byte (the numbers: decision D3). -/
def Obligations.FamilyFDispatch : Prop :=
  ∀ w : Word, famOf w = 0xF →
    (kkOf w = 0x07 → decodeWord w = .ldVxDT (xOf w)) ∧
    (kkOf w = 0x0A → decodeWord w = .ldVxK (xOf w)) ∧
    (kkOf w = 0x15 → decodeWord w = .ldDTVx (xOf w)) ∧
    (kkOf w = 0x18 → decodeWord w = .ldSTVx (xOf w)) ∧
    (kkOf w = 0x1E → decodeWord w = .addIVx (xOf w)) ∧
    (kkOf w = 0x29 → decodeWord w = .ldFVx (xOf w)) ∧
    (kkOf w = 0x33 → decodeWord w = .ldBVx (xOf w)) ∧
    (kkOf w = 0x55 → decodeWord w = .ldMemVx (xOf w)) ∧
    (kkOf w = 0x65 → decodeWord w = .ldVxMem (xOf w)) ∧
    (kkOf w ∉ [0x07#8, 0x0A, 0x15, 0x18, 0x1E, 0x29, 0x33, 0x55, 0x65] →
      decodeWord w = .nopF (nnnOf w))

/-! The no-ops. -/

/-- R127: the four no-op handlers change nothing, and a cycle that fetches an unmapped word only
latches its inputs, advances `pc`, records an address out of range and decays the timers. The advance
modulo 4096 is decision D5 and the OOB bit decision D9 (R24, R122; log 4); `rnd`, `inputs` and `inputNo`
are fields of the model's own (logs 1 and 2). -/
def Obligations.NoOpsOnlyAdvanceAndDecay : Prop :=
  (∀ (bits : BitVec 12) (s : State),
    exec (.sys bits) s = .next s ∧ exec (.nop8 bits) s = .next s ∧
    exec (.nopE bits) s = .next s ∧ exec (.nopF bits) s = .next s) ∧
  ∀ (inp : CycleInput) (s : State), IsNoOpWord (wordAtPc s) →
    ∃ t, cycle inp s = .next t ∧
      t.pc.toNat = (s.pc.toNat + 2) % 4096 ∧
      t.dt.toNat = s.dt.toNat - 1 ∧ t.st.toNat = s.st.toNat - 1 ∧
      t.anom.oob = (s.anom.oob || decide (4096 ≤ s.pc.toNat + 2)) ∧
      t.key = inp.key ∧ t.rnd = inp.rnd ∧ t.inputs = s.inputs ∧ t.inputNo = s.inputNo ∧
      OnlyRegs [] s t ∧
      ∀ p ∈ [Part.idx, .stack, .mem, .fb, .sovf, .sunf], Keeps p s t

/-! Control transfer. -/

/-- R140, under the invariant of R36: with an entry in use RET decrements `SP` and sets `pc` to the
popped entry, which stays in the stack; with none it only records the underflow (decisions D8, D9). -/
def Obligations.ReturnPopsOrRecordsUnderflow : Prop :=
  ∀ (pad : BitVec 8) (s : State), s.Inv →
    decodeWord (wordFam0 pad 0xE) = .ret pad ∧
    (0 < s.sp.toNat → ∃ t, exec (.ret pad) s = .next t ∧
      t.sp.toNat = s.sp.toNat - 1 ∧
      t.pc = stackEntry (BitVec.ofNat 4 (s.sp.toNat - 1)) s ∧
      (∀ k, stackEntry k t = stackEntry k s) ∧
      OnlyRegs [] s t ∧ KeepsAllBut [.pc, .stack] s t) ∧
    (s.sp.toNat = 0 → ∃ t, exec (.ret pad) s = .next t ∧
      t.anom.sunf = true ∧ OnlyRegs [] s t ∧ KeepsAllBut [.sunf] s t)

/-- R141. -/
def Obligations.JumpIsAbsolute : Prop :=
  ∀ (nnn : BitVec 12) (s : State),
    decodeWord (wordNNN 0x1 nnn) = .jp nnn ∧
    ∃ t, exec (.jp nnn) s = .next t ∧ t.pc.toNat = nnn.toNat ∧
      OnlyRegs [] s t ∧ KeepsAllBut [.pc] s t

/-- R142: with room on the stack CALL pushes `pc`; with 16 entries in use the push is suppressed and
the overflow recorded; the jump is taken in both cases (decisions D7, D9). -/
def Obligations.CallPushesOrRecordsOverflow : Prop :=
  ∀ (nnn : BitVec 12) (s : State),
    decodeWord (wordNNN 0x2 nnn) = .call nnn ∧
    (s.sp.toNat < 16 → ∃ t, exec (.call nnn) s = .next t ∧
      t.pc.toNat = nnn.toNat ∧ t.sp.toNat = s.sp.toNat + 1 ∧
      (∀ k : BitVec 4, stackEntry k t =
        if k.toNat = s.sp.toNat then s.pc else stackEntry k s) ∧
      OnlyRegs [] s t ∧ KeepsAllBut [.pc, .stack] s t) ∧
    (s.sp.toNat = 16 → ∃ t, exec (.call nnn) s = .next t ∧
      t.pc.toNat = nnn.toNat ∧ t.anom.sovf = true ∧
      OnlyRegs [] s t ∧ KeepsAllBut [.pc, .sovf] s t)

/-- The document's call and return property (R140, S5): a return that finds the stack as the call left
it restores `pc` and `SP`, whatever else the subroutine changed. -/
def Obligations.CallThenReturnRestoresPcAndSp : Prop :=
  ∀ (nnn : BitVec 12) (pad : BitVec 8) (s t u : State),
    s.sp.toNat < 16 → s.pc.toNat < 4096 → exec (.call nnn) s = .next t →
    u.sp = t.sp → (∀ k, stackEntry k u = stackEntry k t) →
    ∃ r, exec (.ret pad) u = .next r ∧ r.pc = s.pc ∧ r.sp = s.sp

/-- R143 and R144, with the skip of R148: its wrap modulo 4096 is decision D5 and its OOB bit decision D9
(R24; log 4). -/
def Obligations.SkipOnImmediate : Prop :=
  ∀ (x : RegIx) (kk : Byte) (s : State),
    decodeWord (wordXKK 0x3 x kk) = .seImm x kk ∧
    decodeWord (wordXKK 0x4 x kk) = .sneImm x kk ∧
    (∃ t, exec (.seImm x kk) s = .next t ∧ SkipEffect (readReg x s = kk) s t) ∧
    (∃ t, exec (.sneImm x kk) s = .next t ∧ SkipEffect (readReg x s ≠ kk) s t)

/-- R145 and R146, whatever the ignored low nibble (R98, decision D2), with the skip of R148: its wrap
modulo 4096 is decision D5 and its OOB bit decision D9 (R24; log 4). -/
def Obligations.SkipOnRegisters : Prop :=
  ∀ (x y : RegIx) (pad : BitVec 4) (s : State),
    decodeWord (wordXYN 0x5 x y pad) = .seReg x y pad ∧
    decodeWord (wordXYN 0x9 x y pad) = .sneReg x y pad ∧
    (∃ t, exec (.seReg x y pad) s = .next t ∧
      SkipEffect (readReg x s = readReg y s) s t) ∧
    (∃ t, exec (.sneReg x y pad) s = .next t ∧
      SkipEffect (readReg x s ≠ readReg y s) s t)

/-- R147: a sum of 4096 or more wraps and sets OOB (decisions D5, D9). -/
def Obligations.IndexedJumpAddsV0 : Prop :=
  ∀ (nnn : BitVec 12) (s : State),
    decodeWord (wordNNN 0xB nnn) = .jpV0 nnn ∧
    ∃ t, exec (.jpV0 nnn) s = .next t ∧
      t.pc.toNat = ((readReg 0x0 s).toNat + nnn.toNat) % 4096 ∧
      t.anom.oob = (s.anom.oob || decide (4096 ≤ (readReg 0x0 s).toNat + nnn.toNat)) ∧
      OnlyRegs [] s t ∧ KeepsAllBut [.pc, .oob] s t

/-! Loads, arithmetic, logic, shifts, random. -/

/-- R160 and R162. -/
def Obligations.LoadRegisterValue : Prop :=
  ∀ (x y : RegIx) (kk : Byte) (s : State),
    decodeWord (wordXKK 0x6 x kk) = .ldImm x kk ∧
    decodeWord (wordXYN 0x8 x y 0x0) = .ldReg x y ∧
    (∃ t, exec (.ldImm x kk) s = .next t ∧ readReg x t = kk ∧
      OnlyRegs [x] s t ∧ KeepsAllBut [] s t) ∧
    (∃ t, exec (.ldReg x y) s = .next t ∧ readReg x t = readReg y s ∧
      OnlyRegs [x] s t ∧ KeepsAllBut [] s t)

/-- R161: no flag (decisions D12, D13). -/
def Obligations.AddImmediateWrapsWithoutFlag : Prop :=
  ∀ (x : RegIx) (kk : Byte) (s : State),
    decodeWord (wordXKK 0x7 x kk) = .addImm x kk ∧
    ∃ t, exec (.addImm x kk) s = .next t ∧
      (readReg x t).toNat = ((readReg x s).toNat + kk.toNat) % 256 ∧
      OnlyRegs [x] s t ∧ KeepsAllBut [] s t

/-- R163, R164 and R165: bit by bit, and `VF` is not reset (R174, decision D12; log 4). -/
def Obligations.LogicIsBitwiseWithoutFlag : Prop :=
  ∀ (x y : RegIx) (s : State),
    decodeWord (wordXYN 0x8 x y 0x1) = .orReg x y ∧
    decodeWord (wordXYN 0x8 x y 0x2) = .andReg x y ∧
    decodeWord (wordXYN 0x8 x y 0x3) = .xorReg x y ∧
    (∃ t, exec (.orReg x y) s = .next t ∧
      (∀ b < 8, (readReg x t).getLsbD b =
        ((readReg x s).getLsbD b || (readReg y s).getLsbD b)) ∧
      OnlyRegs [x] s t ∧ KeepsAllBut [] s t) ∧
    (∃ t, exec (.andReg x y) s = .next t ∧
      (∀ b < 8, (readReg x t).getLsbD b =
        ((readReg x s).getLsbD b && (readReg y s).getLsbD b)) ∧
      OnlyRegs [x] s t ∧ KeepsAllBut [] s t) ∧
    (∃ t, exec (.xorReg x y) s = .next t ∧
      (∀ b < 8, (readReg x t).getLsbD b =
        ((readReg x s).getLsbD b ^^ (readReg y s).getLsbD b)) ∧
      OnlyRegs [x] s t ∧ KeepsAllBut [] s t)

/-- R166, with the order of R173: the result is what `Vx` holds, also when `Vx` is `VF`. -/
def Obligations.AddRegistersCarries : Prop :=
  ∀ (x y : RegIx) (s : State),
    decodeWord (wordXYN 0x8 x y 0x4) = .addReg x y ∧
    ∃ t, exec (.addReg x y) s = .next t ∧
      (readReg x t).toNat = ((readReg x s).toNat + (readReg y s).toNat) % 256 ∧
      (x ≠ vf → (readReg vf t).toNat =
        if 255 < (readReg x s).toNat + (readReg y s).toNat then 1 else 0) ∧
      OnlyRegs [x, vf] s t ∧ KeepsAllBut [] s t

/-- R167 and R169 (which operand SUBN subtracts: general knowledge, says R169), with the order of R173
(decision D10). -/
def Obligations.SubtractRegistersNotBorrow : Prop :=
  ∀ (x y : RegIx) (s : State),
    decodeWord (wordXYN 0x8 x y 0x5) = .subReg x y ∧
    decodeWord (wordXYN 0x8 x y 0x7) = .subnReg x y ∧
    (∃ t, exec (.subReg x y) s = .next t ∧
      ((readReg x t).toNat : Int) = ((readReg x s).toNat - (readReg y s).toNat : Int) % 256 ∧
      (x ≠ vf → (readReg vf t).toNat =
        if (readReg y s).toNat ≤ (readReg x s).toNat then 1 else 0) ∧
      OnlyRegs [x, vf] s t ∧ KeepsAllBut [] s t) ∧
    (∃ t, exec (.subnReg x y) s = .next t ∧
      ((readReg x t).toNat : Int) = ((readReg y s).toNat - (readReg x s).toNat : Int) % 256 ∧
      (x ≠ vf → (readReg vf t).toNat =
        if (readReg x s).toNat ≤ (readReg y s).toNat then 1 else 0) ∧
      OnlyRegs [x, vf] s t ∧ KeepsAllBut [] s t)

/-- R168 and R170: in place, whatever the ignored `y` (decision D11), with the order of R173 (D10). -/
def Obligations.ShiftsAreInPlace : Prop :=
  ∀ (x y : RegIx) (s : State),
    decodeWord (wordXYN 0x8 x y 0x6) = .shr x y ∧
    decodeWord (wordXYN 0x8 x y 0xE) = .shl x y ∧
    (∃ t, exec (.shr x y) s = .next t ∧
      (readReg x t).toNat = (readReg x s).toNat / 2 ∧
      (x ≠ vf → (readReg vf t).toNat = (readReg x s).toNat % 2) ∧
      OnlyRegs [x, vf] s t ∧ KeepsAllBut [] s t) ∧
    (∃ t, exec (.shl x y) s = .next t ∧
      (readReg x t).toNat = (readReg x s).toNat * 2 % 256 ∧
      (x ≠ vf → (readReg vf t).toNat = (readReg x s).toNat / 128) ∧
      OnlyRegs [x, vf] s t ∧ KeepsAllBut [] s t)

/-- R171, for every random byte that the host may present to the cycle (R263, decision D20). The field
that holds the sampled byte is the model's own (log 2). -/
def Obligations.RandomByteUnderMask : Prop :=
  ∀ (x : RegIx) (kk : Byte) (s : State),
    decodeWord (wordXKK 0xC x kk) = .rnd x kk ∧
    (∃ t, exec (.rnd x kk) s = .next t ∧ readReg x t = s.rnd &&& kk ∧
      OnlyRegs [x] s t ∧ KeepsAllBut [] s t) ∧
    ∀ inp : CycleInput, wordAtPc s = wordXKK 0xC x kk →
      ∃ t, cycle inp s = .next t ∧ readReg x t = inp.rnd &&& kk ∧ OnlyRegs [x] s t

/-! Index register and memory. -/

/-- R190, R191 (the wrap: decision D33) and R192 (the low nibble: decision D15). -/
def Obligations.IndexRegisterWrites : Prop :=
  ∀ (nnn : BitVec 12) (x : RegIx) (s : State),
    decodeWord (wordNNN 0xA nnn) = .ldI nnn ∧
    decodeWord (wordXKK 0xF x 0x1E) = .addIVx x ∧
    decodeWord (wordXKK 0xF x 0x29) = .ldFVx x ∧
    (∃ t, exec (.ldI nnn) s = .next t ∧ t.idx.toNat = nnn.toNat ∧
      OnlyRegs [] s t ∧ KeepsAllBut [.idx] s t) ∧
    (∃ t, exec (.addIVx x) s = .next t ∧
      t.idx.toNat = (s.idx.toNat + (readReg x s).toNat) % 65536 ∧
      OnlyRegs [] s t ∧ KeepsAllBut [.idx] s t) ∧
    (∃ t, exec (.ldFVx x) s = .next t ∧
      t.idx.toNat = 0x050 + 5 * ((readReg x s).toNat % 16) ∧
      OnlyRegs [] s t ∧ KeepsAllBut [.idx] s t)

/-- R193: three digits at `I`, `I + 1`, `I + 2`, each address modulo 4096 (R196, decision D6), with the
OOB bit (decision D9) and `I` unchanged (decision D14; log 4). -/
def Obligations.StoreDecimalDigits : Prop :=
  ∀ (x : RegIx) (s : State),
    decodeWord (wordXKK 0xF x 0x33) = .ldBVx x ∧
    ∃ t, exec (.ldBVx x) s = .next t ∧
      (byteAt (indexAddr 0 s) t).toNat = (readReg x s).toNat / 100 ∧
      (byteAt (indexAddr 1 s) t).toNat = (readReg x s).toNat / 10 % 10 ∧
      (byteAt (indexAddr 2 s) t).toNat = (readReg x s).toNat % 10 ∧
      (∀ a : Nat, (∀ k < 3, a % 4096 ≠ indexAddr k s % 4096) → byteAt a t = byteAt a s) ∧
      t.anom.oob = (s.anom.oob || decide (4096 ≤ indexAddr 2 s)) ∧
      OnlyRegs [] s t ∧ KeepsAllBut [.mem, .oob] s t

/-- R194: `V0` to `Vx` at `I` to `I + x`, each address modulo 4096 (R196, decision D6), with the OOB bit
(decision D9) and `I` unchanged (decision D14; log 4). -/
def Obligations.BulkStoreWritesMemory : Prop :=
  ∀ (x : RegIx) (s : State),
    decodeWord (wordXKK 0xF x 0x55) = .ldMemVx x ∧
    ∃ t, exec (.ldMemVx x) s = .next t ∧
      (∀ k : RegIx, k.toNat ≤ x.toNat → byteAt (indexAddr k.toNat s) t = readReg k s) ∧
      (∀ a : Nat, (∀ k ≤ x.toNat, a % 4096 ≠ indexAddr k s % 4096) →
        byteAt a t = byteAt a s) ∧
      t.anom.oob = (s.anom.oob || decide (4096 ≤ indexAddr x.toNat s)) ∧
      OnlyRegs [] s t ∧ KeepsAllBut [.mem, .oob] s t

/-- R195: `I` to `I + x`, each address modulo 4096 (R196, decision D6), into `V0` to `Vx`, with the OOB
bit (decision D9); the registers above `Vx` and memory unchanged, and `I` too (decision D14; log 4). -/
def Obligations.BulkLoadReadsMemory : Prop :=
  ∀ (x : RegIx) (s : State),
    decodeWord (wordXKK 0xF x 0x65) = .ldVxMem x ∧
    ∃ t, exec (.ldVxMem x) s = .next t ∧
      (∀ k : RegIx, readReg k t =
        if k.toNat ≤ x.toNat then byteAt (indexAddr k.toNat s) s else readReg k s) ∧
      t.anom.oob = (s.anom.oob || decide (4096 ≤ indexAddr x.toNat s)) ∧
      KeepsAllBut [.oob] s t

/-- R195: a bulk load with the same `x` and `I` after a bulk store restores the stored registers,
whatever happened to the registers in between. -/
def Obligations.BulkStoreThenLoadRestoresRegisters : Prop :=
  ∀ (x : RegIx) (s t u : State), exec (.ldMemVx x) s = .next t →
    u.mem = t.mem → u.idx = t.idx →
    ∃ r, exec (.ldVxMem x) u = .next r ∧
      ∀ k : RegIx, k.toNat ≤ x.toNat → readReg k r = readReg k s

/-! Display. -/

/-- R210, whatever the ignored bits (R94). -/
def Obligations.ClearTurnsEveryCellOff : Prop :=
  ∀ (pad : BitVec 8) (s : State),
    decodeWord (wordFam0 pad 0x0) = .cls pad ∧
    ∃ t, exec (.cls pad) s = .next t ∧ (∀ px py, pixel px py t = false) ∧
      OnlyRegs [] s t ∧ KeepsAllBut [.fb] s t

/-- R211 to R215, cell by cell: a drawn sprite bit toggles its cell, every other cell is unchanged, `VF`
is 1 exactly when a drawn bit landed on a cell that was on, and every row is read (clipping: decision
D17; bit order: decision D18). -/
def Obligations.DrawTogglesCellsAndReportsCollision : Prop :=
  ∀ (x y : RegIx) (n : BitVec 4) (s : State),
    decodeWord (wordXYN 0xD x y n) = .drw x y n ∧
    ∃ t, exec (.drw x y n) s = .next t ∧
      (∀ px py, pixel px py t = (pixel px py s ^^ decide (SpriteDraws x y n s px py))) ∧
      ((∃ px py, SpriteDraws x y n s px py ∧ pixel px py s = true) → readReg vf t = 0x01) ∧
      ((¬∃ px py, SpriteDraws x y n s px py ∧ pixel px py s = true) → readReg vf t = 0x00) ∧
      t.anom.oob = (s.anom.oob || decide (∃ k < n.toNat, 4096 ≤ indexAddr k s)) ∧
      OnlyRegs [vf] s t ∧ KeepsAllBut [.fb, .oob] s t

/-- R216, first half, and R215 for the second draw: drawing the same sprite at the same place again
restores the framebuffer exactly, and `VF` is then 1 exactly when some drawn bit fell on a cell that was
off before the first draw (those cells the first draw turned on). The second draw is of any state with
the same memory, index and origin, and the framebuffer that the first draw left. The clause on `VF`
departs from the last claim of R216 ("`VF` after the second is 1 if and only if the sprite has at least
one unclipped bit of 1"), which contradicts R211 and R215: log 13 (DEDUCED). -/
def Obligations.DrawingTwiceRestoresFramebuffer : Prop :=
  ∀ (x y : RegIx) (n : BitVec 4) (s t u r : State),
    exec (.drw x y n) s = .next t →
    u.fb = t.fb → u.mem = s.mem → u.idx = s.idx →
    (readReg x u).toNat % 64 = (readReg x s).toNat % 64 →
    (readReg y u).toNat % 32 = (readReg y s).toNat % 32 →
    exec (.drw x y n) u = .next r →
    r.fb = s.fb ∧
      (readReg vf r = 0x01 ↔
        ∃ px py, SpriteDraws x y n s px py ∧ pixel px py s = false)

/-- R216, its last claim as the spec words it: after two draws of the same sprite at the same place, `VF`
is 1 if and only if the sprite has an unclipped bit of 1. EXPECTED TO FAIL: where all those cells were
on before the first draw, the first draw turns them off and the second turns them on again, which by
R211 and R215 is no collision (log 13). -/
def Obligations.SecondDrawCollidesIffSpriteHasAnUnclippedBit : Prop :=
  ∀ (x y : RegIx) (n : BitVec 4) (s t r : State),
    x ≠ vf → y ≠ vf →
    exec (.drw x y n) s = .next t → exec (.drw x y n) t = .next r →
    (readReg vf r = 0x01 ↔ ∃ px py, SpriteDraws x y n s px py)

/-! Keypad and timers. -/

/-- R230, R231 and R236: the key is the low nibble of `Vx` (decision D16); exactly one of SKP and SKNP
skips. -/
def Obligations.SkipOnKey : Prop :=
  ∀ (x : RegIx) (pad : BitVec 4) (s : State),
    decodeWord (wordXYN 0xE x pad 0xE) = .skp x pad ∧
    decodeWord (wordXYN 0xE x pad 0x1) = .sknp x pad ∧
    (∃ t, exec (.skp x pad) s = .next t ∧
      SkipEffect (s.key.getLsbD ((readReg x s).toNat % 16) = true) s t) ∧
    (∃ t, exec (.sknp x pad) s = .next t ∧
      SkipEffect (s.key.getLsbD ((readReg x s).toNat % 16) = false) s t)

/-- R233: with no key down `pc` goes back by 2 modulo 4096 and nothing else changes; otherwise `Vx`
receives the lowest-numbered key that is down and `pc` stays. -/
def Obligations.WaitForKeyHoldsOrStores : Prop :=
  ∀ (x : RegIx) (s : State),
    decodeWord (wordXKK 0xF x 0x0A) = .ldVxK x ∧
    (s.key = 0x0000 → ∃ t, exec (.ldVxK x) s = .next t ∧
      t.pc.toNat = (s.pc.toNat + 4096 - 2) % 4096 ∧
      OnlyRegs [] s t ∧ KeepsAllBut [.pc] s t) ∧
    (s.key ≠ 0x0000 → ∃ t, exec (.ldVxK x) s = .next t ∧
      (readReg x t).toNat < 16 ∧ s.key.getLsbD (readReg x t).toNat = true ∧
      (∀ j < (readReg x t).toNat, s.key.getLsbD j = false) ∧
      OnlyRegs [x] s t ∧ KeepsAllBut [] s t)

/-- R232, R234 and R235. -/
def Obligations.TimerLoadsAndReads : Prop :=
  ∀ (x : RegIx) (s : State),
    decodeWord (wordXKK 0xF x 0x07) = .ldVxDT x ∧
    decodeWord (wordXKK 0xF x 0x15) = .ldDTVx x ∧
    decodeWord (wordXKK 0xF x 0x18) = .ldSTVx x ∧
    (∃ t, exec (.ldVxDT x) s = .next t ∧ readReg x t = s.dt ∧
      OnlyRegs [x] s t ∧ KeepsAllBut [] s t) ∧
    (∃ t, exec (.ldDTVx x) s = .next t ∧ t.dt = readReg x s ∧
      OnlyRegs [] s t ∧ KeepsAllBut [.dt] s t) ∧
    (∃ t, exec (.ldSTVx x) s = .next t ∧ t.st = readReg x s ∧
      OnlyRegs [] s t ∧ KeepsAllBut [.st] s t)

/-- R34 and R233: a cycle of a blocked machine ends where it began; the timers go on decaying and
nothing else changes but the latched inputs (R125). What R34 and R233 say of a blocked machine is derived
there. The OOB bit at 0xFFE and 0xFFF is the advance's, R122 and R24 (decisions D5, D9; log 4). -/
def Obligations.BlockedCycleOnlyDecaysTimers : Prop :=
  ∀ (inp : CycleInput) (s : State), s.pc.toNat < 4096 → s.Blocked inp.key →
    ∃ t, cycle inp s = .next t ∧ t.pc = s.pc ∧
      t.dt.toNat = s.dt.toNat - 1 ∧ t.st.toNat = s.st.toNat - 1 ∧
      t.anom.oob = (s.anom.oob || decide (4096 ≤ s.pc.toNat + 2)) ∧
      OnlyRegs [] s t ∧
      ∀ p ∈ [Part.idx, .stack, .mem, .fb, .sovf, .sunf], Keeps p s t

/-! The cycle. -/

/-- A step runs the decoded instruction (R121 to R126): when the bytes at `pc` and `pc + 1` decode to
`i`, the step latches what the host presents, advances `pc`, records an address out of range, executes
`i`, and decays the timers of whatever state that gives. The wrap and the OOB bit are decisions D5 and D9
(log 4). The model's own choices: the queue of inputs and its count (log 1), the random byte sampled into
`rnd` in every cycle, where R35 samples it in an RND cycle only (log 2), the mark `started` (log 7). -/
def Obligations.StepRunsDecodedInstruction : Prop :=
  ∀ (s : State) (i : Instr),
    decode [byteAt s.pc.toNat s, byteAt (s.pc.toNat + 1) s] = .ok (i, []) →
    ∃ e : State,
      e.key = (nextInput s).key ∧ e.rnd = (nextInput s).rnd ∧ e.started = true ∧
      e.inputs = s.inputs.tail ∧ e.inputNo = s.inputNo + 1 ∧
      e.pc.toNat = (s.pc.toNat + 2) % 4096 ∧
      e.anom.oob = (s.anom.oob || decide (4096 ≤ s.pc.toNat + 2)) ∧
      OnlyRegs [] s e ∧ e.mem = s.mem ∧ e.fb = s.fb ∧
      (∀ p ∈ [Part.idx, .stack, .dt, .st, .sovf, .sunf], Keeps p s e) ∧
      (∀ t, exec i e = .next t →
        step s = .next { t with dt := countDown t.dt, st := countDown t.st }) ∧
      (∀ r, exec i e = .fault r → step s = .fault r) ∧
      (∀ r, exec i e = .refused r → step s = .refused r)

/-- The inputs of a step: the oldest pair that the host has queued, taken from the queue. That the key
value is latched in every cycle is R125. The model's own choices: the queue (log 1), the random byte
sampled into `rnd` in every cycle, where R35 and R263 sample it in an RND cycle only (log 2), and the mark
`started` (log 7). -/
def Obligations.StepTakesTheOldestInput : Prop :=
  ∀ (inp : CycleInput) (rest : List CycleInput) (s t : State),
    s.inputs = inp :: rest → step s = .next t →
    t.key = inp.key ∧ t.rnd = inp.rnd ∧ t.inputs = rest ∧ t.started = true

/-- R250 and R120: every instruction completes and every step answers a next state; nothing faults and
nothing is refused. -/
def Obligations.EveryStepAnswersNext : Prop :=
  (∀ (i : Instr) (s : State), ∃ t, exec i s = .next t) ∧
  (∀ (inp : CycleInput) (s : State), ∃ t, cycle inp s = .next t) ∧
  ∀ s : State, ∃ t, step s = .next t

/-- R126: the decay is of the timers as the instruction left them. The clauses on LD DT, Vx and LD ST, Vx
are consequence (a) of R126, which the spec derives from R126 with R234 and R235. The other clauses are
derived from R126 and from no other instruction's writing a timer (R28, R29). -/
def Obligations.TimersDecayOncePerCycle : Prop :=
  ∀ (inp : CycleInput) (s t : State), cycle inp s = .next t →
    ((∀ x, decodeWord (wordAtPc s) ≠ .ldDTVx x) → t.dt.toNat = s.dt.toNat - 1) ∧
    (∀ x, decodeWord (wordAtPc s) = .ldDTVx x → t.dt.toNat = (readReg x s).toNat - 1) ∧
    ((∀ x, decodeWord (wordAtPc s) ≠ .ldSTVx x) → t.st.toNat = s.st.toNat - 1) ∧
    (∀ x, decodeWord (wordAtPc s) = .ldSTVx x → t.st.toNat = (readReg x s).toNat - 1)

/-- The table of R24, which the spec derives from the instruction rules: where every cycle leaves `pc`.
The wrap modulo 4096 is decision D5, a RET with the stack empty D8 (log 4). -/
def Obligations.PcAfterEveryCycle : Prop :=
  ∀ (inp : CycleInput) (s : State), s.Inv →
    ∃ t, cycle inp s = .next t ∧
      t.pc.toNat = pcAfter (decodeWord (wordAtPc s)) inp.key s.pc.toNat s

/-- R130: a jump to itself leaves everything unchanged but the timers. Two clauses are not R130's: the
inputs are latched as in every cycle (R125), and at 0xFFE and 0xFFF the advance sets the OOB bit, which is
R122 and R24 (decisions D5, D9; log 4). -/
def Obligations.SelfJumpIsTheEndOfAProgram : Prop :=
  ∀ (inp : CycleInput) (nnn : BitVec 12) (s : State),
    s.pc.toNat = nnn.toNat → wordAtPc s = wordNNN 0x1 nnn →
    ∃ t, cycle inp s = .next t ∧ t.pc = s.pc ∧ wordAtPc t = wordAtPc s ∧
      t.dt.toNat = s.dt.toNat - 1 ∧ t.st.toNat = s.st.toNat - 1 ∧
      t.anom.oob = (s.anom.oob || decide (4096 ≤ s.pc.toNat + 2)) ∧
      OnlyRegs [] s t ∧
      ∀ p ∈ [Part.idx, .stack, .mem, .fb, .sovf, .sunf], Keeps p s t

/-! Memory. -/

/-- R63 and R64: every access is at the address modulo 4096, an address of 4096 or more sets OOB, and
nothing else changes (decisions D6, D9). -/
def Obligations.MemoryAccessIsModulo4096 : Prop :=
  ∀ (a b : Nat) (v : Byte) (s : State),
    (memRead a s).1 = Memory.read s.mem (a % 4096) ∧
    (memRead a s).2.anom.oob = (s.anom.oob || decide (4096 ≤ a)) ∧
    OnlyRegs [] s (memRead a s).2 ∧ KeepsAllBut [.oob] s (memRead a s).2 ∧
    byteAt b (memWrite a v s) = (if b % 4096 = a % 4096 then v else byteAt b s) ∧
    (memWrite a v s).anom.oob = (s.anom.oob || decide (4096 ≤ a)) ∧
    OnlyRegs [] s (memWrite a v s) ∧ KeepsAllBut [.mem, .oob] s (memWrite a v s)

/-- R72: a stored byte is what the next fetch sees, in either half of the opcode (decision D24). -/
def Obligations.StoredByteIsFetched : Prop :=
  ∀ (a : Nat) (v : Byte) (s : State),
    hiByte (fetch (memWrite a v s)).1 =
      (if s.pc.toNat % 4096 = a % 4096 then v else hiByte (fetch s).1) ∧
    loByte (fetch (memWrite a v s)).1 =
      (if (s.pc.toNat + 1) % 4096 = a % 4096 then v else loByte (fetch s).1)

/-! Whole-machine rules. -/

/-- The invariant of R36 and R26 (`pc` in 0 to 4095, `SP` in 0 to 16, stack entries in 0 to 4095) and
the canonical form of memory (the model's own, log 3) are kept by every step, from every state that
meets them. -/
def Obligations.StepKeepsInvariant : Prop :=
  ∀ s t : State, s.Inv → step s = .next t → t.Inv

/-- The invariant holds after reset, and LoadProgram keeps it (R36: "after reset and after every load").
The canonical form of memory, which it includes, is the model's own (log 3). -/
def Obligations.ResetAndLoadMeetInvariant : Prop :=
  State.reset.Inv ∧
  ∀ (bytes : List Byte) (s t : State), s.Inv → loadProgram bytes s = .next t → t.Inv

/-- Who writes what: every instruction leaves alone every register that the table of R23 does not have
it write, and every other part that R24 to R33 and R67 do not. In particular only CALL and RET touch
the stack, only CLS and DRW the framebuffer, only LD B and LD [I] memory, only the three of R25 the
index register, and no instruction the latched inputs. -/
def Obligations.InstructionsWriteOnlyWhatTheTablesSay : Prop :=
  ∀ (i : Instr) (s t : State), exec i s = .next t →
    OnlyRegs (Instr.regsWritten i) s t ∧ KeepsAllBut (Instr.partsWritten i) s t

/-- R129: only SKP, SKNP and LD Vx, K read the keypad latch, and only RND the random byte. Changing
the input changes nothing else in the answer of any other instruction. The field that holds the sampled
byte is the model's own (log 2). -/
def Obligations.InputsAreReadOnlyByTheirInstructions : Prop :=
  ∀ (i : Instr) (s t : State), exec i s = .next t →
    (∀ k : Word, Instr.readsKey i = false →
      exec i { s with key := k } = .next { t with key := k }) ∧
    (∀ b : Byte, Instr.readsRnd i = false →
      exec i { s with rnd := b } = .next { t with rnd := b })

/-- R33 and R129: a sticky bit, once set, stays set through every step; and what can set SOVF and SUNF
(R251; decision D9). -/
def Obligations.AnomalyBitsAreStickyWithTheirCauses : Prop :=
  ∀ (inp : CycleInput) (s t : State), cycle inp s = .next t →
    (s.anom.sovf = true → t.anom.sovf = true) ∧
    (s.anom.sunf = true → t.anom.sunf = true) ∧
    (s.anom.oob = true → t.anom.oob = true) ∧
    (s.anom.sovf = false → s.sp.toNat ≤ 16 → (t.anom.sovf = true ↔
      s.sp.toNat = 16 ∧ ∃ nnn, decodeWord (wordAtPc s) = .call nnn)) ∧
    (s.anom.sunf = false → (t.anom.sunf = true ↔
      s.sp.toNat = 0 ∧ ∃ pad, decodeWord (wordAtPc s) = .ret pad))

/-- R33 (decision D9): `ANOM` has no effect on any other state. Two machines that differ in `ANOM` only
still differ in `ANOM` only after a step. -/
def Obligations.AnomalyRegisterAffectsNothingElse : Prop :=
  ∀ s t : State, EqButAnom s t → AnswersEqButAnom (step s) (step t)

/-! Reset and load. -/

/-- R37 and R280, R281: what Reset leaves, whatever the state before it. The font is written out from
R76 (general knowledge, decision D19), one 40-bit number per glyph, top row in the most significant byte.
The values of `I`, `SP`, the framebuffer, `KEY` and `ANOM` are decisions D9 and D21 (log 12). The fields
that Reset gives a value beside these, and those that it keeps, are the model's own (logs 2, 7 and 10). -/
def Obligations.ResetLeavesTheStatedValues : Prop :=
  ∀ s : State,
    (∀ r, readReg r (hostReset s) = 0x00) ∧ (hostReset s).pc = 0x0200 ∧
    (hostReset s).idx = 0x0000 ∧ (∀ k, stackEntry k (hostReset s) = 0x0000) ∧
    (hostReset s).sp = 0 ∧ (hostReset s).dt = 0x00 ∧ (hostReset s).st = 0x00 ∧
    (∀ a < 0x050, byteAt a (hostReset s) = 0x00) ∧
    (∀ d < 16, ∀ row < 5, (byteAt (0x050 + 5 * d + row) (hostReset s)).toNat =
      [0xF0909090F0, 0x2060202070, 0xF010F080F0, 0xF010F010F0, 0x9090F01010, 0xF080F010F0,
        0xF080F090F0, 0xF010204040, 0xF090F090F0, 0xF090F010F0, 0xF090F09090, 0xE090E090E0,
        0xF0808080F0, 0xE0909090E0, 0xF080F080F0, 0xF080F08080].getD d 0 / 256 ^ (4 - row) % 256) ∧
    (∀ a, 0x0A0 ≤ a → a < 4096 → byteAt a (hostReset s) = 0x00) ∧
    (∀ px py, pixel px py (hostReset s) = false) ∧
    (hostReset s).key = 0x0000 ∧ anomBits (hostReset s) = 0#3 ∧
    hostReset State.reset = State.reset

/-- R284: a successful load puts byte `k` at 0x200 + `k` and changes nothing else. That a load is allowed
while `started` is false is the model's window (log 7). -/
def Obligations.LoadProgramCopiesTheImage : Prop :=
  ∀ (bytes : List Byte) (s : State), s.started = false → bytes.length ≤ 3584 →
    ∃ t, loadProgram bytes s = .next t ∧
      (∀ (k : Nat) (h : k < bytes.length), byteAt (0x200 + k) t = bytes[k]) ∧
      (∀ a < 4096, a < 0x200 ∨ 0x200 + bytes.length ≤ a → byteAt a t = byteAt a s) ∧
      OnlyRegs [] s t ∧ KeepsAllBut [.mem] s t

/-- R252, R284, R286: an image of more than 3584 bytes fails with RomTooLarge; after the first cycle a
load is refused; and every step closes the load window (the window is the model's `started`, log 7). -/
def Obligations.LoadProgramRejections : Prop :=
  (∀ (bytes : List Byte) (s : State), s.started = false → 3584 < bytes.length →
    loadProgram bytes s = .fault .romTooLarge) ∧
  (∀ (bytes : List Byte) (s : State), s.started = true →
    loadProgram bytes s = .refused .loadAfterFirstCycle) ∧
  ∀ s t : State, step s = .next t → t.started = true
end

