-- ==== Sys2Proof/Laws/Memory.lean ====
section
/-! SUPPORT. Memory as data: a read after a write, the canonical form is kept, and equal memories are
equal lists. -/

namespace Sys2Proof.Machine

theorem Memory.read_erase (m : Memory) (a addr : Nat) :
    Memory.read (Memory.erase m a) addr =
      if addr = a then Memory.unlisted addr else Memory.read m addr := by
  induction m with
  | nil => simp [Memory.erase, Memory.read]
  | cons c m ih =>
    obtain ⟨k, b⟩ := c
    simp only [Memory.erase] at ih ⊢
    by_cases hk : k = a
    · subst hk
      simp only [List.filter_cons, bne_self_eq_false, Bool.false_eq_true, if_false, ih, Memory.read]
      by_cases h : addr = k
      · simp [h]
      · simp [h, Ne.symm h]
    · have : ((k, b).1 != a) = true := by simpa using hk
      simp only [List.filter_cons, this, if_true, Memory.read, ih]
      by_cases h : k = addr
      · subst h; simp [hk]
      · simp [h]

theorem Memory.read_place (m : Memory) (a : Nat) (b : Byte) (addr : Nat)
    (h : ∀ c ∈ m, c.1 ≠ a) :
    Memory.read (Memory.place a b m) addr = if addr = a then b else Memory.read m addr := by
  induction m with
  | nil => simp [Memory.place, Memory.read, eq_comm]
  | cons c m ih =>
    obtain ⟨k, d⟩ := c
    have hk : k ≠ a := h (k, d) (by simp)
    have ih := ih (fun c hc => h c (by simp [hc]))
    simp only [Memory.place]
    split
    · simp [Memory.read, eq_comm]
    · simp only [Memory.read, ih]
      by_cases hka : k = addr
      · subst hka; simp [hk]
      · simp [hka]

theorem Memory.mem_erase {m : Memory} {a : Nat} {c : Host.Cell} :
    c ∈ Memory.erase m a ↔ c ∈ m ∧ c.1 ≠ a := by
  simp [Memory.erase]

/-- A read after a write: the written byte at its address, every other byte as before. -/
theorem Memory.read_write (m : Memory) (a : Nat) (b : Byte) (addr : Nat) :
    Memory.read (Memory.write m a b) addr = if addr = a then b else Memory.read m addr := by
  unfold Memory.write
  split
  · next h => rw [Memory.read_erase]; split <;> simp_all
  · rw [Memory.read_place _ _ _ _ (fun c hc => (Memory.mem_erase.mp hc).2), Memory.read_erase]
    split <;> rfl

theorem Memory.mem_place {m : Memory} {a : Nat} {b : Byte} {c : Host.Cell} :
    c ∈ Memory.place a b m ↔ c = (a, b) ∨ c ∈ m := by
  induction m with
  | nil => simp [Memory.place]
  | cons d m ih =>
    simp only [Memory.place]
    split
    · simp
    · simp only [List.mem_cons, ih]; tauto

theorem Memory.pairwise_place {m : Memory} {a : Nat} {b : Byte}
    (hm : m.Pairwise (fun c d => c.1 < d.1)) (h : ∀ c ∈ m, c.1 ≠ a) :
    (Memory.place a b m).Pairwise (fun c d => c.1 < d.1) := by
  induction m with
  | nil => simp [Memory.place]
  | cons d m ih =>
    obtain ⟨hd, hm⟩ := List.pairwise_cons.mp hm
    have hda : d.1 ≠ a := h d (by simp)
    simp only [Memory.place]
    split
    · next hlt =>
      refine List.pairwise_cons.mpr ⟨?_, List.pairwise_cons.mpr ⟨hd, hm⟩⟩
      intro c hc
      rcases List.mem_cons.mp hc with rfl | hc
      · exact hlt
      · exact lt_trans hlt (hd c hc)
    · next hge =>
      refine List.pairwise_cons.mpr ⟨?_, ih hm (fun c hc => h c (by simp [hc]))⟩
      intro c hc
      rcases Memory.mem_place.mp hc with rfl | hc
      · simp only; omega
      · exact hd c hc

theorem Memory.wf_nil : Memory.wf [] := by simp [Memory.wf]

/-- A write inside the 4096 cells keeps the canonical form. -/
theorem Memory.wf_write {m : Memory} (hm : Memory.wf m) {a : Nat} (ha : a < 4096) (b : Byte) :
    Memory.wf (Memory.write m a b) := by
  obtain ⟨hs, hc⟩ := hm
  have herase : Memory.wf (Memory.erase m a) :=
    ⟨hs.filter _, fun c h => hc c (Memory.mem_erase.mp h).1⟩
  unfold Memory.write
  split
  · exact herase
  · next hb =>
    refine ⟨Memory.pairwise_place herase.1 (fun c h => (Memory.mem_erase.mp h).2), ?_⟩
    intro c h
    rcases Memory.mem_place.mp h with rfl | h
    · exact ⟨ha, hb⟩
    · exact herase.2 c h

/-- Writing bytes that end inside the 4096 cells keeps the canonical form. -/
theorem Memory.wf_writeAll {m : Memory} (hm : Memory.wf m) {a : Nat} (bs : List Byte)
    (h : a + bs.length ≤ 4096) : Memory.wf (Memory.writeAll m a bs) := by
  induction bs generalizing m a with
  | nil => exact hm
  | cons b bs ih =>
    simp only [List.length_cons] at h
    exact ih (Memory.wf_write hm (by omega) b) (by omega)

/-- Reading after writing consecutive bytes: byte `k` at `a + k`, every other address as before. -/
theorem Memory.read_writeAll (m : Memory) (a : Nat) (bs : List Byte) (addr : Nat) :
    Memory.read (Memory.writeAll m a bs) addr =
      if h : a ≤ addr ∧ addr < a + bs.length then bs[addr - a]'(by omega)
      else Memory.read m addr := by
  induction bs generalizing m a with
  | nil =>
    have : ¬(a ≤ addr ∧ addr < a + ([] : List Byte).length) := by simp
    simp only [this, dif_neg, not_false_eq_true, Memory.writeAll]
  | cons b bs ih =>
    simp only [Memory.writeAll, ih, Memory.read_write, List.length_cons]
    by_cases h1 : addr = a
    · subst h1
      simp
    · by_cases h2 : a + 1 ≤ addr ∧ addr < a + 1 + bs.length
      · have h3 : a ≤ addr ∧ addr < a + (bs.length + 1) := by omega
        simp only [h2, h3, and_self, dif_pos]
        obtain ⟨k, hk⟩ : ∃ k, addr - a = k + 1 := ⟨addr - a - 1, by omega⟩
        have : addr - (a + 1) = k := by omega
        simp [this, hk]
      · have h3 : ¬(a ≤ addr ∧ addr < a + (bs.length + 1)) := by omega
        rw [dif_neg h2, dif_neg h3, if_neg h1]

/-- A canonical memory whose addresses are all above `addr` has no cell for `addr`. -/
theorem Memory.read_of_forall_gt {m : Memory} {addr : Nat} (h : ∀ c ∈ m, addr < c.1) :
    Memory.read m addr = Memory.unlisted addr := by
  induction m with
  | nil => rfl
  | cons c m ih =>
    obtain ⟨k, b⟩ := c
    have : k ≠ addr := by have := h (k, b) (by simp); simp only at this; omega
    simp only [Memory.read, this, if_false]
    exact ih (fun c hc => h c (by simp [hc]))

/-- Memories in canonical form that read the same everywhere are the same data. -/
theorem Memory.eq_of_read_eq {m n : Memory} (hm : Memory.wf m) (hn : Memory.wf n)
    (h : ∀ addr, Memory.read m addr = Memory.read n addr) : m = n := by
  induction m generalizing n with
  | nil =>
    cases n with
    | nil => rfl
    | cons d n =>
      obtain ⟨k, b⟩ := d
      have := h k
      simp only [Memory.read, if_true] at this
      exact absurd this.symm (hn.2 (k, b) (by simp)).2
  | cons c m ih =>
    obtain ⟨j, a⟩ := c
    obtain ⟨hcm, hsm⟩ := List.pairwise_cons.mp hm.1
    have hja := (hm.2 (j, a) (by simp)).2
    have hm' : Memory.wf m := ⟨hsm, fun c hc => hm.2 c (by simp [hc])⟩
    cases n with
    | nil =>
      have := h j
      simp only [Memory.read, if_true] at this
      exact absurd this hja
    | cons d n =>
      obtain ⟨k, b⟩ := d
      obtain ⟨hcn, hsn⟩ := List.pairwise_cons.mp hn.1
      have hkb := (hn.2 (k, b) (by simp)).2
      have hn' : Memory.wf n := ⟨hsn, fun c hc => hn.2 c (by simp [hc])⟩
      have hjk : j = k := by
        rcases Nat.lt_trichotomy j k with hlt | heq | hgt
        · have h1 := h j
          simp only [Memory.read, if_true, if_neg (show k ≠ j by omega)] at h1
          rw [Memory.read_of_forall_gt (m := n)
            (fun c hc => lt_trans hlt (hcn c hc))] at h1
          exact absurd h1 hja
        · exact heq
        · have h1 := h k
          simp only [Memory.read, if_true, if_neg (show j ≠ k by omega)] at h1
          rw [Memory.read_of_forall_gt (m := m)
            (fun c hc => lt_trans hgt (hcm c hc))] at h1
          exact absurd h1.symm hkb
      subst hjk
      have hab : a = b := by simpa [Memory.read] using h j
      subst hab
      congr 1
      refine ih hm' hn' (fun addr => ?_)
      by_cases haddr : j = addr
      · subst haddr
        rw [Memory.read_of_forall_gt hcm, Memory.read_of_forall_gt hcn]
      · simpa [Memory.read, haddr] using h addr

end Sys2Proof.Machine
end

