-- ==== Sys2Proof/Laws/State.lean ====
section
/-! SUPPORT. One lemma per field per named update: what the update puts there, or that it leaves the
field alone. -/

namespace Sys2Proof.Machine

/-! `writeReg`. -/

@[simp] theorem writeReg_v (r : RegIx) (b : Byte) (s : State) :
    (writeReg r b s).v = s.v.set r.toNat b r.isLt := rfl
@[simp] theorem writeReg_pc (r : RegIx) (b : Byte) (s : State) :
    (writeReg r b s).pc = s.pc := rfl
@[simp] theorem writeReg_idx (r : RegIx) (b : Byte) (s : State) :
    (writeReg r b s).idx = s.idx := rfl
@[simp] theorem writeReg_stack (r : RegIx) (b : Byte) (s : State) :
    (writeReg r b s).stack = s.stack := rfl
@[simp] theorem writeReg_sp (r : RegIx) (b : Byte) (s : State) :
    (writeReg r b s).sp = s.sp := rfl
@[simp] theorem writeReg_dt (r : RegIx) (b : Byte) (s : State) :
    (writeReg r b s).dt = s.dt := rfl
@[simp] theorem writeReg_st (r : RegIx) (b : Byte) (s : State) :
    (writeReg r b s).st = s.st := rfl
@[simp] theorem writeReg_mem (r : RegIx) (b : Byte) (s : State) :
    (writeReg r b s).mem = s.mem := rfl
@[simp] theorem writeReg_fb (r : RegIx) (b : Byte) (s : State) :
    (writeReg r b s).fb = s.fb := rfl
@[simp] theorem writeReg_key (r : RegIx) (b : Byte) (s : State) :
    (writeReg r b s).key = s.key := rfl
@[simp] theorem writeReg_anom (r : RegIx) (b : Byte) (s : State) :
    (writeReg r b s).anom = s.anom := rfl
@[simp] theorem writeReg_rnd (r : RegIx) (b : Byte) (s : State) :
    (writeReg r b s).rnd = s.rnd := rfl
@[simp] theorem writeReg_inputs (r : RegIx) (b : Byte) (s : State) :
    (writeReg r b s).inputs = s.inputs := rfl
@[simp] theorem writeReg_inputNo (r : RegIx) (b : Byte) (s : State) :
    (writeReg r b s).inputNo = s.inputNo := rfl
@[simp] theorem writeReg_started (r : RegIx) (b : Byte) (s : State) :
    (writeReg r b s).started = s.started := rfl

/-! `noteOob`. -/

@[simp] theorem noteOob_v (a : Nat) (s : State) :
    (noteOob a s).v = s.v := rfl
@[simp] theorem noteOob_pc (a : Nat) (s : State) :
    (noteOob a s).pc = s.pc := rfl
@[simp] theorem noteOob_idx (a : Nat) (s : State) :
    (noteOob a s).idx = s.idx := rfl
@[simp] theorem noteOob_stack (a : Nat) (s : State) :
    (noteOob a s).stack = s.stack := rfl
@[simp] theorem noteOob_sp (a : Nat) (s : State) :
    (noteOob a s).sp = s.sp := rfl
@[simp] theorem noteOob_dt (a : Nat) (s : State) :
    (noteOob a s).dt = s.dt := rfl
@[simp] theorem noteOob_st (a : Nat) (s : State) :
    (noteOob a s).st = s.st := rfl
@[simp] theorem noteOob_mem (a : Nat) (s : State) :
    (noteOob a s).mem = s.mem := rfl
@[simp] theorem noteOob_fb (a : Nat) (s : State) :
    (noteOob a s).fb = s.fb := rfl
@[simp] theorem noteOob_key (a : Nat) (s : State) :
    (noteOob a s).key = s.key := rfl
@[simp] theorem noteOob_anom (a : Nat) (s : State) :
    (noteOob a s).anom = { s.anom with oob := s.anom.oob || decide (4096 ≤ a) } := rfl
@[simp] theorem noteOob_rnd (a : Nat) (s : State) :
    (noteOob a s).rnd = s.rnd := rfl
@[simp] theorem noteOob_inputs (a : Nat) (s : State) :
    (noteOob a s).inputs = s.inputs := rfl
@[simp] theorem noteOob_inputNo (a : Nat) (s : State) :
    (noteOob a s).inputNo = s.inputNo := rfl
@[simp] theorem noteOob_started (a : Nat) (s : State) :
    (noteOob a s).started = s.started := rfl

/-! `writePc`. -/

@[simp] theorem writePc_v (a : Nat) (s : State) :
    (writePc a s).v = s.v := rfl
@[simp] theorem writePc_pc (a : Nat) (s : State) :
    (writePc a s).pc = BitVec.ofNat 16 (a % 4096) := rfl
@[simp] theorem writePc_idx (a : Nat) (s : State) :
    (writePc a s).idx = s.idx := rfl
@[simp] theorem writePc_stack (a : Nat) (s : State) :
    (writePc a s).stack = s.stack := rfl
@[simp] theorem writePc_sp (a : Nat) (s : State) :
    (writePc a s).sp = s.sp := rfl
@[simp] theorem writePc_dt (a : Nat) (s : State) :
    (writePc a s).dt = s.dt := rfl
@[simp] theorem writePc_st (a : Nat) (s : State) :
    (writePc a s).st = s.st := rfl
@[simp] theorem writePc_mem (a : Nat) (s : State) :
    (writePc a s).mem = s.mem := rfl
@[simp] theorem writePc_fb (a : Nat) (s : State) :
    (writePc a s).fb = s.fb := rfl
@[simp] theorem writePc_key (a : Nat) (s : State) :
    (writePc a s).key = s.key := rfl
@[simp] theorem writePc_anom (a : Nat) (s : State) :
    (writePc a s).anom = { s.anom with oob := s.anom.oob || decide (4096 ≤ a) } := rfl
@[simp] theorem writePc_rnd (a : Nat) (s : State) :
    (writePc a s).rnd = s.rnd := rfl
@[simp] theorem writePc_inputs (a : Nat) (s : State) :
    (writePc a s).inputs = s.inputs := rfl
@[simp] theorem writePc_inputNo (a : Nat) (s : State) :
    (writePc a s).inputNo = s.inputNo := rfl
@[simp] theorem writePc_started (a : Nat) (s : State) :
    (writePc a s).started = s.started := rfl

/-! `writeIdx`. -/

@[simp] theorem writeIdx_v (a : Nat) (s : State) :
    (writeIdx a s).v = s.v := rfl
@[simp] theorem writeIdx_pc (a : Nat) (s : State) :
    (writeIdx a s).pc = s.pc := rfl
@[simp] theorem writeIdx_idx (a : Nat) (s : State) :
    (writeIdx a s).idx = BitVec.ofNat 16 a := rfl
@[simp] theorem writeIdx_stack (a : Nat) (s : State) :
    (writeIdx a s).stack = s.stack := rfl
@[simp] theorem writeIdx_sp (a : Nat) (s : State) :
    (writeIdx a s).sp = s.sp := rfl
@[simp] theorem writeIdx_dt (a : Nat) (s : State) :
    (writeIdx a s).dt = s.dt := rfl
@[simp] theorem writeIdx_st (a : Nat) (s : State) :
    (writeIdx a s).st = s.st := rfl
@[simp] theorem writeIdx_mem (a : Nat) (s : State) :
    (writeIdx a s).mem = s.mem := rfl
@[simp] theorem writeIdx_fb (a : Nat) (s : State) :
    (writeIdx a s).fb = s.fb := rfl
@[simp] theorem writeIdx_key (a : Nat) (s : State) :
    (writeIdx a s).key = s.key := rfl
@[simp] theorem writeIdx_anom (a : Nat) (s : State) :
    (writeIdx a s).anom = s.anom := rfl
@[simp] theorem writeIdx_rnd (a : Nat) (s : State) :
    (writeIdx a s).rnd = s.rnd := rfl
@[simp] theorem writeIdx_inputs (a : Nat) (s : State) :
    (writeIdx a s).inputs = s.inputs := rfl
@[simp] theorem writeIdx_inputNo (a : Nat) (s : State) :
    (writeIdx a s).inputNo = s.inputNo := rfl
@[simp] theorem writeIdx_started (a : Nat) (s : State) :
    (writeIdx a s).started = s.started := rfl

/-! `memWrite`. -/

@[simp] theorem memWrite_v (a : Nat) (b : Byte) (s : State) :
    (memWrite a b s).v = s.v := rfl
@[simp] theorem memWrite_pc (a : Nat) (b : Byte) (s : State) :
    (memWrite a b s).pc = s.pc := rfl
@[simp] theorem memWrite_idx (a : Nat) (b : Byte) (s : State) :
    (memWrite a b s).idx = s.idx := rfl
@[simp] theorem memWrite_stack (a : Nat) (b : Byte) (s : State) :
    (memWrite a b s).stack = s.stack := rfl
@[simp] theorem memWrite_sp (a : Nat) (b : Byte) (s : State) :
    (memWrite a b s).sp = s.sp := rfl
@[simp] theorem memWrite_dt (a : Nat) (b : Byte) (s : State) :
    (memWrite a b s).dt = s.dt := rfl
@[simp] theorem memWrite_st (a : Nat) (b : Byte) (s : State) :
    (memWrite a b s).st = s.st := rfl
@[simp] theorem memWrite_mem (a : Nat) (b : Byte) (s : State) :
    (memWrite a b s).mem = Memory.write s.mem (a % 4096) b := rfl
@[simp] theorem memWrite_fb (a : Nat) (b : Byte) (s : State) :
    (memWrite a b s).fb = s.fb := rfl
@[simp] theorem memWrite_key (a : Nat) (b : Byte) (s : State) :
    (memWrite a b s).key = s.key := rfl
@[simp] theorem memWrite_anom (a : Nat) (b : Byte) (s : State) :
    (memWrite a b s).anom = { s.anom with oob := s.anom.oob || decide (4096 ≤ a) } := rfl
@[simp] theorem memWrite_rnd (a : Nat) (b : Byte) (s : State) :
    (memWrite a b s).rnd = s.rnd := rfl
@[simp] theorem memWrite_inputs (a : Nat) (b : Byte) (s : State) :
    (memWrite a b s).inputs = s.inputs := rfl
@[simp] theorem memWrite_inputNo (a : Nat) (b : Byte) (s : State) :
    (memWrite a b s).inputNo = s.inputNo := rfl
@[simp] theorem memWrite_started (a : Nat) (b : Byte) (s : State) :
    (memWrite a b s).started = s.started := rfl

/-! `clearFrame`. -/

@[simp] theorem clearFrame_v (s : State) :
    (clearFrame s).v = s.v := rfl
@[simp] theorem clearFrame_pc (s : State) :
    (clearFrame s).pc = s.pc := rfl
@[simp] theorem clearFrame_idx (s : State) :
    (clearFrame s).idx = s.idx := rfl
@[simp] theorem clearFrame_stack (s : State) :
    (clearFrame s).stack = s.stack := rfl
@[simp] theorem clearFrame_sp (s : State) :
    (clearFrame s).sp = s.sp := rfl
@[simp] theorem clearFrame_dt (s : State) :
    (clearFrame s).dt = s.dt := rfl
@[simp] theorem clearFrame_st (s : State) :
    (clearFrame s).st = s.st := rfl
@[simp] theorem clearFrame_mem (s : State) :
    (clearFrame s).mem = s.mem := rfl
@[simp] theorem clearFrame_fb (s : State) :
    (clearFrame s).fb = Vector.replicate 32 0#64 := rfl
@[simp] theorem clearFrame_key (s : State) :
    (clearFrame s).key = s.key := rfl
@[simp] theorem clearFrame_anom (s : State) :
    (clearFrame s).anom = s.anom := rfl
@[simp] theorem clearFrame_rnd (s : State) :
    (clearFrame s).rnd = s.rnd := rfl
@[simp] theorem clearFrame_inputs (s : State) :
    (clearFrame s).inputs = s.inputs := rfl
@[simp] theorem clearFrame_inputNo (s : State) :
    (clearFrame s).inputNo = s.inputNo := rfl
@[simp] theorem clearFrame_started (s : State) :
    (clearFrame s).started = s.started := rfl

/-! `latch`. -/

@[simp] theorem latch_v (inp : CycleInput) (s : State) :
    (latch inp s).v = s.v := rfl
@[simp] theorem latch_pc (inp : CycleInput) (s : State) :
    (latch inp s).pc = s.pc := rfl
@[simp] theorem latch_idx (inp : CycleInput) (s : State) :
    (latch inp s).idx = s.idx := rfl
@[simp] theorem latch_stack (inp : CycleInput) (s : State) :
    (latch inp s).stack = s.stack := rfl
@[simp] theorem latch_sp (inp : CycleInput) (s : State) :
    (latch inp s).sp = s.sp := rfl
@[simp] theorem latch_dt (inp : CycleInput) (s : State) :
    (latch inp s).dt = s.dt := rfl
@[simp] theorem latch_st (inp : CycleInput) (s : State) :
    (latch inp s).st = s.st := rfl
@[simp] theorem latch_mem (inp : CycleInput) (s : State) :
    (latch inp s).mem = s.mem := rfl
@[simp] theorem latch_fb (inp : CycleInput) (s : State) :
    (latch inp s).fb = s.fb := rfl
@[simp] theorem latch_key (inp : CycleInput) (s : State) :
    (latch inp s).key = inp.key := rfl
@[simp] theorem latch_anom (inp : CycleInput) (s : State) :
    (latch inp s).anom = s.anom := rfl
@[simp] theorem latch_rnd (inp : CycleInput) (s : State) :
    (latch inp s).rnd = inp.rnd := rfl
@[simp] theorem latch_inputs (inp : CycleInput) (s : State) :
    (latch inp s).inputs = s.inputs := rfl
@[simp] theorem latch_inputNo (inp : CycleInput) (s : State) :
    (latch inp s).inputNo = s.inputNo := rfl
@[simp] theorem latch_started (inp : CycleInput) (s : State) :
    (latch inp s).started = true := rfl

/-! `takeInput`. -/

@[simp] theorem takeInput_v (s : State) :
    (takeInput s).v = s.v := rfl
@[simp] theorem takeInput_pc (s : State) :
    (takeInput s).pc = s.pc := rfl
@[simp] theorem takeInput_idx (s : State) :
    (takeInput s).idx = s.idx := rfl
@[simp] theorem takeInput_stack (s : State) :
    (takeInput s).stack = s.stack := rfl
@[simp] theorem takeInput_sp (s : State) :
    (takeInput s).sp = s.sp := rfl
@[simp] theorem takeInput_dt (s : State) :
    (takeInput s).dt = s.dt := rfl
@[simp] theorem takeInput_st (s : State) :
    (takeInput s).st = s.st := rfl
@[simp] theorem takeInput_mem (s : State) :
    (takeInput s).mem = s.mem := rfl
@[simp] theorem takeInput_fb (s : State) :
    (takeInput s).fb = s.fb := rfl
@[simp] theorem takeInput_key (s : State) :
    (takeInput s).key = s.key := rfl
@[simp] theorem takeInput_anom (s : State) :
    (takeInput s).anom = s.anom := rfl
@[simp] theorem takeInput_rnd (s : State) :
    (takeInput s).rnd = s.rnd := rfl
@[simp] theorem takeInput_inputs (s : State) :
    (takeInput s).inputs = s.inputs.tail := rfl
@[simp] theorem takeInput_inputNo (s : State) :
    (takeInput s).inputNo = s.inputNo + 1 := rfl
@[simp] theorem takeInput_started (s : State) :
    (takeInput s).started = s.started := rfl

/-! `decay`. -/

@[simp] theorem decay_v (s : State) :
    (decay s).v = s.v := rfl
@[simp] theorem decay_pc (s : State) :
    (decay s).pc = s.pc := rfl
@[simp] theorem decay_idx (s : State) :
    (decay s).idx = s.idx := rfl
@[simp] theorem decay_stack (s : State) :
    (decay s).stack = s.stack := rfl
@[simp] theorem decay_sp (s : State) :
    (decay s).sp = s.sp := rfl
@[simp] theorem decay_dt (s : State) :
    (decay s).dt = countDown s.dt := rfl
@[simp] theorem decay_st (s : State) :
    (decay s).st = countDown s.st := rfl
@[simp] theorem decay_mem (s : State) :
    (decay s).mem = s.mem := rfl
@[simp] theorem decay_fb (s : State) :
    (decay s).fb = s.fb := rfl
@[simp] theorem decay_key (s : State) :
    (decay s).key = s.key := rfl
@[simp] theorem decay_anom (s : State) :
    (decay s).anom = s.anom := rfl
@[simp] theorem decay_rnd (s : State) :
    (decay s).rnd = s.rnd := rfl
@[simp] theorem decay_inputs (s : State) :
    (decay s).inputs = s.inputs := rfl
@[simp] theorem decay_inputNo (s : State) :
    (decay s).inputNo = s.inputNo := rfl
@[simp] theorem decay_started (s : State) :
    (decay s).started = s.started := rfl

/-! `note`, whatever the anomaly. -/

@[simp] theorem note_v (a : Anomaly) (c : Bool) (s : State) :
    (note a c s).v = s.v := by cases a <;> rfl
@[simp] theorem note_pc (a : Anomaly) (c : Bool) (s : State) :
    (note a c s).pc = s.pc := by cases a <;> rfl
@[simp] theorem note_idx (a : Anomaly) (c : Bool) (s : State) :
    (note a c s).idx = s.idx := by cases a <;> rfl
@[simp] theorem note_stack (a : Anomaly) (c : Bool) (s : State) :
    (note a c s).stack = s.stack := by cases a <;> rfl
@[simp] theorem note_sp (a : Anomaly) (c : Bool) (s : State) :
    (note a c s).sp = s.sp := by cases a <;> rfl
@[simp] theorem note_dt (a : Anomaly) (c : Bool) (s : State) :
    (note a c s).dt = s.dt := by cases a <;> rfl
@[simp] theorem note_st (a : Anomaly) (c : Bool) (s : State) :
    (note a c s).st = s.st := by cases a <;> rfl
@[simp] theorem note_mem (a : Anomaly) (c : Bool) (s : State) :
    (note a c s).mem = s.mem := by cases a <;> rfl
@[simp] theorem note_fb (a : Anomaly) (c : Bool) (s : State) :
    (note a c s).fb = s.fb := by cases a <;> rfl
@[simp] theorem note_key (a : Anomaly) (c : Bool) (s : State) :
    (note a c s).key = s.key := by cases a <;> rfl
@[simp] theorem note_rnd (a : Anomaly) (c : Bool) (s : State) :
    (note a c s).rnd = s.rnd := by cases a <;> rfl
@[simp] theorem note_inputs (a : Anomaly) (c : Bool) (s : State) :
    (note a c s).inputs = s.inputs := by cases a <;> rfl
@[simp] theorem note_inputNo (a : Anomaly) (c : Bool) (s : State) :
    (note a c s).inputNo = s.inputNo := by cases a <;> rfl
@[simp] theorem note_started (a : Anomaly) (c : Bool) (s : State) :
    (note a c s).started = s.started := by cases a <;> rfl

/-! `storeRegs`: what it never changes. -/

@[simp] theorem storeRegs_v (base n : Nat) (s : State) :
    (storeRegs base n s).v = s.v := by
  induction n with
  | zero => rfl
  | succ n ih => simpa [storeRegs] using ih

@[simp] theorem storeRegs_pc (base n : Nat) (s : State) :
    (storeRegs base n s).pc = s.pc := by
  induction n with
  | zero => rfl
  | succ n ih => simpa [storeRegs] using ih

@[simp] theorem storeRegs_idx (base n : Nat) (s : State) :
    (storeRegs base n s).idx = s.idx := by
  induction n with
  | zero => rfl
  | succ n ih => simpa [storeRegs] using ih

@[simp] theorem storeRegs_stack (base n : Nat) (s : State) :
    (storeRegs base n s).stack = s.stack := by
  induction n with
  | zero => rfl
  | succ n ih => simpa [storeRegs] using ih

@[simp] theorem storeRegs_sp (base n : Nat) (s : State) :
    (storeRegs base n s).sp = s.sp := by
  induction n with
  | zero => rfl
  | succ n ih => simpa [storeRegs] using ih

@[simp] theorem storeRegs_dt (base n : Nat) (s : State) :
    (storeRegs base n s).dt = s.dt := by
  induction n with
  | zero => rfl
  | succ n ih => simpa [storeRegs] using ih

@[simp] theorem storeRegs_st (base n : Nat) (s : State) :
    (storeRegs base n s).st = s.st := by
  induction n with
  | zero => rfl
  | succ n ih => simpa [storeRegs] using ih

@[simp] theorem storeRegs_fb (base n : Nat) (s : State) :
    (storeRegs base n s).fb = s.fb := by
  induction n with
  | zero => rfl
  | succ n ih => simpa [storeRegs] using ih

@[simp] theorem storeRegs_key (base n : Nat) (s : State) :
    (storeRegs base n s).key = s.key := by
  induction n with
  | zero => rfl
  | succ n ih => simpa [storeRegs] using ih

@[simp] theorem storeRegs_rnd (base n : Nat) (s : State) :
    (storeRegs base n s).rnd = s.rnd := by
  induction n with
  | zero => rfl
  | succ n ih => simpa [storeRegs] using ih

@[simp] theorem storeRegs_inputs (base n : Nat) (s : State) :
    (storeRegs base n s).inputs = s.inputs := by
  induction n with
  | zero => rfl
  | succ n ih => simpa [storeRegs] using ih

@[simp] theorem storeRegs_inputNo (base n : Nat) (s : State) :
    (storeRegs base n s).inputNo = s.inputNo := by
  induction n with
  | zero => rfl
  | succ n ih => simpa [storeRegs] using ih

@[simp] theorem storeRegs_started (base n : Nat) (s : State) :
    (storeRegs base n s).started = s.started := by
  induction n with
  | zero => rfl
  | succ n ih => simpa [storeRegs] using ih

/-! `loadRegs`: what it never changes. -/

@[simp] theorem loadRegs_pc (base n : Nat) (s : State) :
    (loadRegs base n s).pc = s.pc := by
  induction n with
  | zero => rfl
  | succ n ih => simpa [loadRegs, memRead] using ih

@[simp] theorem loadRegs_idx (base n : Nat) (s : State) :
    (loadRegs base n s).idx = s.idx := by
  induction n with
  | zero => rfl
  | succ n ih => simpa [loadRegs, memRead] using ih

@[simp] theorem loadRegs_stack (base n : Nat) (s : State) :
    (loadRegs base n s).stack = s.stack := by
  induction n with
  | zero => rfl
  | succ n ih => simpa [loadRegs, memRead] using ih

@[simp] theorem loadRegs_sp (base n : Nat) (s : State) :
    (loadRegs base n s).sp = s.sp := by
  induction n with
  | zero => rfl
  | succ n ih => simpa [loadRegs, memRead] using ih

@[simp] theorem loadRegs_dt (base n : Nat) (s : State) :
    (loadRegs base n s).dt = s.dt := by
  induction n with
  | zero => rfl
  | succ n ih => simpa [loadRegs, memRead] using ih

@[simp] theorem loadRegs_st (base n : Nat) (s : State) :
    (loadRegs base n s).st = s.st := by
  induction n with
  | zero => rfl
  | succ n ih => simpa [loadRegs, memRead] using ih

@[simp] theorem loadRegs_mem (base n : Nat) (s : State) :
    (loadRegs base n s).mem = s.mem := by
  induction n with
  | zero => rfl
  | succ n ih => simpa [loadRegs, memRead] using ih

@[simp] theorem loadRegs_fb (base n : Nat) (s : State) :
    (loadRegs base n s).fb = s.fb := by
  induction n with
  | zero => rfl
  | succ n ih => simpa [loadRegs, memRead] using ih

@[simp] theorem loadRegs_key (base n : Nat) (s : State) :
    (loadRegs base n s).key = s.key := by
  induction n with
  | zero => rfl
  | succ n ih => simpa [loadRegs, memRead] using ih

@[simp] theorem loadRegs_rnd (base n : Nat) (s : State) :
    (loadRegs base n s).rnd = s.rnd := by
  induction n with
  | zero => rfl
  | succ n ih => simpa [loadRegs, memRead] using ih

@[simp] theorem loadRegs_inputs (base n : Nat) (s : State) :
    (loadRegs base n s).inputs = s.inputs := by
  induction n with
  | zero => rfl
  | succ n ih => simpa [loadRegs, memRead] using ih

@[simp] theorem loadRegs_inputNo (base n : Nat) (s : State) :
    (loadRegs base n s).inputNo = s.inputNo := by
  induction n with
  | zero => rfl
  | succ n ih => simpa [loadRegs, memRead] using ih

@[simp] theorem loadRegs_started (base n : Nat) (s : State) :
    (loadRegs base n s).started = s.started := by
  induction n with
  | zero => rfl
  | succ n ih => simpa [loadRegs, memRead] using ih

/-! `drawRows`: what it never changes. -/

@[simp] theorem drawRows_v (base x0 y0 n : Nat) (s : State) :
    (drawRows base x0 y0 n s).2.v = s.v := by
  induction n with
  | zero => rfl
  | succ n ih => simpa [drawRows, memRead] using ih

@[simp] theorem drawRows_pc (base x0 y0 n : Nat) (s : State) :
    (drawRows base x0 y0 n s).2.pc = s.pc := by
  induction n with
  | zero => rfl
  | succ n ih => simpa [drawRows, memRead] using ih

@[simp] theorem drawRows_idx (base x0 y0 n : Nat) (s : State) :
    (drawRows base x0 y0 n s).2.idx = s.idx := by
  induction n with
  | zero => rfl
  | succ n ih => simpa [drawRows, memRead] using ih

@[simp] theorem drawRows_stack (base x0 y0 n : Nat) (s : State) :
    (drawRows base x0 y0 n s).2.stack = s.stack := by
  induction n with
  | zero => rfl
  | succ n ih => simpa [drawRows, memRead] using ih

@[simp] theorem drawRows_sp (base x0 y0 n : Nat) (s : State) :
    (drawRows base x0 y0 n s).2.sp = s.sp := by
  induction n with
  | zero => rfl
  | succ n ih => simpa [drawRows, memRead] using ih

@[simp] theorem drawRows_dt (base x0 y0 n : Nat) (s : State) :
    (drawRows base x0 y0 n s).2.dt = s.dt := by
  induction n with
  | zero => rfl
  | succ n ih => simpa [drawRows, memRead] using ih

@[simp] theorem drawRows_st (base x0 y0 n : Nat) (s : State) :
    (drawRows base x0 y0 n s).2.st = s.st := by
  induction n with
  | zero => rfl
  | succ n ih => simpa [drawRows, memRead] using ih

@[simp] theorem drawRows_mem (base x0 y0 n : Nat) (s : State) :
    (drawRows base x0 y0 n s).2.mem = s.mem := by
  induction n with
  | zero => rfl
  | succ n ih => simpa [drawRows, memRead] using ih

@[simp] theorem drawRows_key (base x0 y0 n : Nat) (s : State) :
    (drawRows base x0 y0 n s).2.key = s.key := by
  induction n with
  | zero => rfl
  | succ n ih => simpa [drawRows, memRead] using ih

@[simp] theorem drawRows_rnd (base x0 y0 n : Nat) (s : State) :
    (drawRows base x0 y0 n s).2.rnd = s.rnd := by
  induction n with
  | zero => rfl
  | succ n ih => simpa [drawRows, memRead] using ih

@[simp] theorem drawRows_inputs (base x0 y0 n : Nat) (s : State) :
    (drawRows base x0 y0 n s).2.inputs = s.inputs := by
  induction n with
  | zero => rfl
  | succ n ih => simpa [drawRows, memRead] using ih

@[simp] theorem drawRows_inputNo (base x0 y0 n : Nat) (s : State) :
    (drawRows base x0 y0 n s).2.inputNo = s.inputNo := by
  induction n with
  | zero => rfl
  | succ n ih => simpa [drawRows, memRead] using ih

@[simp] theorem drawRows_started (base x0 y0 n : Nat) (s : State) :
    (drawRows base x0 y0 n s).2.started = s.started := by
  induction n with
  | zero => rfl
  | succ n ih => simpa [drawRows, memRead] using ih

/-! `pushPc`: what it never changes. -/

@[simp] theorem pushPc_v (s : State) :
    (pushPc s).v = s.v := by
  unfold pushPc; split <;> simp

@[simp] theorem pushPc_pc (s : State) :
    (pushPc s).pc = s.pc := by
  unfold pushPc; split <;> simp

@[simp] theorem pushPc_idx (s : State) :
    (pushPc s).idx = s.idx := by
  unfold pushPc; split <;> simp

@[simp] theorem pushPc_dt (s : State) :
    (pushPc s).dt = s.dt := by
  unfold pushPc; split <;> simp

@[simp] theorem pushPc_st (s : State) :
    (pushPc s).st = s.st := by
  unfold pushPc; split <;> simp

@[simp] theorem pushPc_mem (s : State) :
    (pushPc s).mem = s.mem := by
  unfold pushPc; split <;> simp

@[simp] theorem pushPc_fb (s : State) :
    (pushPc s).fb = s.fb := by
  unfold pushPc; split <;> simp

@[simp] theorem pushPc_key (s : State) :
    (pushPc s).key = s.key := by
  unfold pushPc; split <;> simp

@[simp] theorem pushPc_rnd (s : State) :
    (pushPc s).rnd = s.rnd := by
  unfold pushPc; split <;> simp

@[simp] theorem pushPc_inputs (s : State) :
    (pushPc s).inputs = s.inputs := by
  unfold pushPc; split <;> simp

@[simp] theorem pushPc_inputNo (s : State) :
    (pushPc s).inputNo = s.inputNo := by
  unfold pushPc; split <;> simp

@[simp] theorem pushPc_started (s : State) :
    (pushPc s).started = s.started := by
  unfold pushPc; split <;> simp

/-! `popPc`: what it never changes. -/

@[simp] theorem popPc_v (s : State) :
    (popPc s).v = s.v := by
  unfold popPc; split <;> simp

@[simp] theorem popPc_idx (s : State) :
    (popPc s).idx = s.idx := by
  unfold popPc; split <;> simp

@[simp] theorem popPc_stack (s : State) :
    (popPc s).stack = s.stack := by
  unfold popPc; split <;> simp

@[simp] theorem popPc_dt (s : State) :
    (popPc s).dt = s.dt := by
  unfold popPc; split <;> simp

@[simp] theorem popPc_st (s : State) :
    (popPc s).st = s.st := by
  unfold popPc; split <;> simp

@[simp] theorem popPc_mem (s : State) :
    (popPc s).mem = s.mem := by
  unfold popPc; split <;> simp

@[simp] theorem popPc_fb (s : State) :
    (popPc s).fb = s.fb := by
  unfold popPc; split <;> simp

@[simp] theorem popPc_key (s : State) :
    (popPc s).key = s.key := by
  unfold popPc; split <;> simp

@[simp] theorem popPc_rnd (s : State) :
    (popPc s).rnd = s.rnd := by
  unfold popPc; split <;> simp

@[simp] theorem popPc_inputs (s : State) :
    (popPc s).inputs = s.inputs := by
  unfold popPc; split <;> simp

@[simp] theorem popPc_inputNo (s : State) :
    (popPc s).inputNo = s.inputNo := by
  unfold popPc; split <;> simp

@[simp] theorem popPc_started (s : State) :
    (popPc s).started = s.started := by
  unfold popPc; split <;> simp

/-! `skipIf`: what it never changes. -/

@[simp] theorem skipIf_v (c : Bool) (s : State) :
    (skipIf c s).v = s.v := by
  cases c <;> simp [skipIf]

@[simp] theorem skipIf_idx (c : Bool) (s : State) :
    (skipIf c s).idx = s.idx := by
  cases c <;> simp [skipIf]

@[simp] theorem skipIf_stack (c : Bool) (s : State) :
    (skipIf c s).stack = s.stack := by
  cases c <;> simp [skipIf]

@[simp] theorem skipIf_sp (c : Bool) (s : State) :
    (skipIf c s).sp = s.sp := by
  cases c <;> simp [skipIf]

@[simp] theorem skipIf_dt (c : Bool) (s : State) :
    (skipIf c s).dt = s.dt := by
  cases c <;> simp [skipIf]

@[simp] theorem skipIf_st (c : Bool) (s : State) :
    (skipIf c s).st = s.st := by
  cases c <;> simp [skipIf]

@[simp] theorem skipIf_mem (c : Bool) (s : State) :
    (skipIf c s).mem = s.mem := by
  cases c <;> simp [skipIf]

@[simp] theorem skipIf_fb (c : Bool) (s : State) :
    (skipIf c s).fb = s.fb := by
  cases c <;> simp [skipIf]

@[simp] theorem skipIf_key (c : Bool) (s : State) :
    (skipIf c s).key = s.key := by
  cases c <;> simp [skipIf]

@[simp] theorem skipIf_rnd (c : Bool) (s : State) :
    (skipIf c s).rnd = s.rnd := by
  cases c <;> simp [skipIf]

@[simp] theorem skipIf_inputs (c : Bool) (s : State) :
    (skipIf c s).inputs = s.inputs := by
  cases c <;> simp [skipIf]

@[simp] theorem skipIf_inputNo (c : Bool) (s : State) :
    (skipIf c s).inputNo = s.inputNo := by
  cases c <;> simp [skipIf]

@[simp] theorem skipIf_started (c : Bool) (s : State) :
    (skipIf c s).started = s.started := by
  cases c <;> simp [skipIf]

/-! `holdPc`: what it never changes. -/

@[simp] theorem holdPc_v (s : State) :
    (holdPc s).v = s.v := by
  simp only [holdPc, writePc_v]

@[simp] theorem holdPc_idx (s : State) :
    (holdPc s).idx = s.idx := by
  simp only [holdPc, writePc_idx]

@[simp] theorem holdPc_stack (s : State) :
    (holdPc s).stack = s.stack := by
  simp only [holdPc, writePc_stack]

@[simp] theorem holdPc_sp (s : State) :
    (holdPc s).sp = s.sp := by
  simp only [holdPc, writePc_sp]

@[simp] theorem holdPc_dt (s : State) :
    (holdPc s).dt = s.dt := by
  simp only [holdPc, writePc_dt]

@[simp] theorem holdPc_st (s : State) :
    (holdPc s).st = s.st := by
  simp only [holdPc, writePc_st]

@[simp] theorem holdPc_mem (s : State) :
    (holdPc s).mem = s.mem := by
  simp only [holdPc, writePc_mem]

@[simp] theorem holdPc_fb (s : State) :
    (holdPc s).fb = s.fb := by
  simp only [holdPc, writePc_fb]

@[simp] theorem holdPc_key (s : State) :
    (holdPc s).key = s.key := by
  simp only [holdPc, writePc_key]

@[simp] theorem holdPc_rnd (s : State) :
    (holdPc s).rnd = s.rnd := by
  simp only [holdPc, writePc_rnd]

@[simp] theorem holdPc_inputs (s : State) :
    (holdPc s).inputs = s.inputs := by
  simp only [holdPc, writePc_inputs]

@[simp] theorem holdPc_inputNo (s : State) :
    (holdPc s).inputNo = s.inputNo := by
  simp only [holdPc, writePc_inputNo]

@[simp] theorem holdPc_started (s : State) :
    (holdPc s).started = s.started := by
  simp only [holdPc, writePc_started]

/-! `waitKey`: what it never changes. -/

@[simp] theorem waitKey_idx (x : RegIx) (s : State) :
    (waitKey x s).idx = s.idx := by
  unfold waitKey; split <;> simp

@[simp] theorem waitKey_stack (x : RegIx) (s : State) :
    (waitKey x s).stack = s.stack := by
  unfold waitKey; split <;> simp

@[simp] theorem waitKey_sp (x : RegIx) (s : State) :
    (waitKey x s).sp = s.sp := by
  unfold waitKey; split <;> simp

@[simp] theorem waitKey_dt (x : RegIx) (s : State) :
    (waitKey x s).dt = s.dt := by
  unfold waitKey; split <;> simp

@[simp] theorem waitKey_st (x : RegIx) (s : State) :
    (waitKey x s).st = s.st := by
  unfold waitKey; split <;> simp

@[simp] theorem waitKey_mem (x : RegIx) (s : State) :
    (waitKey x s).mem = s.mem := by
  unfold waitKey; split <;> simp

@[simp] theorem waitKey_fb (x : RegIx) (s : State) :
    (waitKey x s).fb = s.fb := by
  unfold waitKey; split <;> simp

@[simp] theorem waitKey_key (x : RegIx) (s : State) :
    (waitKey x s).key = s.key := by
  unfold waitKey; split <;> simp

@[simp] theorem waitKey_rnd (x : RegIx) (s : State) :
    (waitKey x s).rnd = s.rnd := by
  unfold waitKey; split <;> simp

@[simp] theorem waitKey_inputs (x : RegIx) (s : State) :
    (waitKey x s).inputs = s.inputs := by
  unfold waitKey; split <;> simp

@[simp] theorem waitKey_inputNo (x : RegIx) (s : State) :
    (waitKey x s).inputNo = s.inputNo := by
  unfold waitKey; split <;> simp

@[simp] theorem waitKey_started (x : RegIx) (s : State) :
    (waitKey x s).started = s.started := by
  unfold waitKey; split <;> simp

end Sys2Proof.Machine
end

