-- ==== Sys2Proof/Laws/Ops.lean ====
section
/-! SUPPORT. One spec lemma per shared operation: everything it can do, for callers to cite. -/

namespace Sys2Proof.Machine

/-! Anomalies. -/

@[simp] theorem note_false (a : Anomaly) (s : State) : note a false s = s := by
  cases a <;> simp [note]

/-- A sticky bit, once set, stays set. -/
theorem note_sticky (a : Anomaly) (c : Bool) (s : State) :
    (s.anom.sovf = true → (note a c s).anom.sovf = true) ∧
    (s.anom.sunf = true → (note a c s).anom.sunf = true) ∧
    (s.anom.oob = true → (note a c s).anom.oob = true) := by
  cases a <;> simp +contextual [note]

/-! Registers. -/

/-- Registers are independent (R21): a write is read back, every other register is as before. -/
theorem readReg_writeReg (r : RegIx) (b : Byte) (q : RegIx) (s : State) :
    readReg q (writeReg r b s) = if q = r then b else readReg q s := by
  simp [readReg, writeReg, Vector.getElem_set, BitVec.toNat_inj, eq_comm]

/-- A register read looks at the register file only. -/
theorem readReg_congr {s t : State} (h : t.v = s.v) (r : RegIx) : readReg r t = readReg r s := by
  simp [readReg, h]

/-- The flag first, the result second (R173). -/
theorem readReg_writeFlagThenResult (x : RegIx) (f r : Byte) (q : RegIx) (s : State) :
    readReg q (writeFlagThenResult x f r s) =
      if q = x then r else if q = vf then f else readReg q s := by
  simp [writeFlagThenResult, readReg_writeReg]

/-! Memory. -/

/-- A byte read looks at the memory only. -/
theorem byteAt_congr {s t : State} (h : t.mem = s.mem) (a : Nat) : byteAt a t = byteAt a s := by
  simp [byteAt, h]

/-- A stored byte is read back at its address modulo 4096, every other byte is as before. -/
theorem byteAt_memWrite (a : Nat) (b : Byte) (addr : Nat) (s : State) :
    byteAt addr (memWrite a b s) = if addr % 4096 = a % 4096 then b else byteAt addr s := by
  simp [byteAt, Memory.read_write]

/-- Bulk store: the OOB bit (R196). -/
theorem storeRegs_anom (base n : Nat) (s : State) :
    (storeRegs base n s).anom =
      { s.anom with oob := s.anom.oob || decide (0 < n ∧ 4096 ≤ base + (n - 1)) } := by
  induction n with
  | zero => simp [storeRegs]
  | succ n ih =>
    simp only [storeRegs, memWrite_anom, ih, Bool.or_assoc]
    congr 1
    rw [Bool.eq_iff_iff]
    cases s.anom.oob <;> simp; omega

/-- Bulk store: every byte of memory after it (R194). -/
theorem byteAt_storeRegs (base : Nat) (s : State) (n : Nat) (hn : n ≤ 16) (addr : Nat) :
    byteAt addr (storeRegs base n s) =
      match (List.range n).find? (fun k => (base + k) % 4096 == addr % 4096) with
      | some k => readReg (BitVec.ofNat 4 k) s
      | none => byteAt addr s := by
  induction n with
  | zero => simp [storeRegs]
  | succ n ih =>
    simp only [storeRegs, byteAt_memWrite, ih (by omega), List.range_succ, List.find?_append,
      List.find?_singleton]
    by_cases h : addr % 4096 = (base + n) % 4096
    · have hnone : (List.range n).find? (fun k => (base + k) % 4096 == addr % 4096) = none := by
        simp only [List.find?_eq_none, List.mem_range, beq_iff_eq]
        omega
      simp [h]
      rw [h] at hnone
      simp [hnone]
    · simp only [h, if_false, beq_iff_eq, Ne.symm h]
      cases (List.range n).find? (fun k => (base + k) % 4096 == addr % 4096) <;> simp

/-- Bulk store: where `V[k]` goes. -/
theorem byteAt_storeRegs_of_lt (base : Nat) (s : State) {n k : Nat} (hn : n ≤ 16) (hk : k < n) :
    byteAt (base + k) (storeRegs base n s) = readReg (BitVec.ofNat 4 k) s := by
  have : (List.range n).find? (fun j => (base + j) % 4096 == (base + k) % 4096) = some k := by
    rw [List.find?_eq_some_iff_getElem]
    refine ⟨by simp, k, by simpa using hk, by simp, fun j hj => ?_⟩
    simp; omega
  rw [byteAt_storeRegs base s n hn, this]

/-- Bulk store: a byte outside the stored ones is as before. -/
theorem byteAt_storeRegs_of_ne (base : Nat) (s : State) {n addr : Nat} (hn : n ≤ 16)
    (h : ∀ k < n, addr % 4096 ≠ (base + k) % 4096) :
    byteAt addr (storeRegs base n s) = byteAt addr s := by
  have : (List.range n).find? (fun j => (base + j) % 4096 == addr % 4096) = none := by
    simp only [List.find?_eq_none, List.mem_range, beq_iff_eq]
    exact fun k hk he => h k hk he.symm
  rw [byteAt_storeRegs base s n hn, this]

/-- Bulk load: the OOB bit (R196). -/
theorem loadRegs_anom (base n : Nat) (s : State) :
    (loadRegs base n s).anom =
      { s.anom with oob := s.anom.oob || decide (0 < n ∧ 4096 ≤ base + (n - 1)) } := by
  induction n with
  | zero => simp [loadRegs]
  | succ n ih =>
    simp only [loadRegs, memRead, writeReg_anom, noteOob_anom, ih, Bool.or_assoc]
    congr 1
    rw [Bool.eq_iff_iff]
    cases s.anom.oob <;> simp; omega

/-- Bulk load: every register after it (R195). -/
theorem readReg_loadRegs (base : Nat) (s : State) (n : Nat) (hn : n ≤ 16) (r : RegIx) :
    readReg r (loadRegs base n s) =
      if r.toNat < n then byteAt (base + r.toNat) s else readReg r s := by
  induction n with
  | zero => simp [loadRegs]
  | succ n ih =>
    have hr : (r = BitVec.ofNat 4 n) ↔ r.toNat = n := by
      rw [← BitVec.toNat_inj]; simp; omega
    simp only [loadRegs, memRead, readReg_writeReg, byteAt_congr (loadRegs_mem base n s)]
    rw [readReg_congr (noteOob_v _ _), ih (by omega)]
    by_cases h : r.toNat = n
    · simp [hr, h]
    · have h1 : (r.toNat < n + 1) ↔ r.toNat < n := by omega
      simp [hr, h, h1]

/-! Call stack. -/

/-- The stack after a push that is not suppressed. -/
theorem pushPc_of_lt {s : State} (h : s.sp.toNat < 16) :
    (pushPc s).sp = s.sp + 1 ∧ (pushPc s).anom = s.anom ∧
    (∀ k : BitVec 4, stackEntry k (pushPc s) =
      if k.toNat = s.sp.toNat then s.pc else stackEntry k s) := by
  have hmod : s.sp.toNat % 16 = s.sp.toNat := Nat.mod_eq_of_lt h
  simp [pushPc, h, stackEntry, Vector.getElem_set, hmod, eq_comm]

/-- A suppressed push records the anomaly and nothing else (R142). -/
theorem pushPc_of_full {s : State} (h : ¬s.sp.toNat < 16) : pushPc s = note .sovf true s := by
  simp [pushPc, h]

/-- A pop with an entry in use. -/
theorem popPc_of_pos {s : State} (h : 0 < s.sp.toNat) :
    popPc s = writePc (stackEntry ((s.sp - 1).setWidth 4) s).toNat { s with sp := s.sp - 1 } := by
  simp [popPc, h]

/-- A pop of the empty stack records the anomaly and nothing else (R140). -/
theorem popPc_of_empty {s : State} (h : ¬0 < s.sp.toNat) : popPc s = note .sunf true s := by
  simp [popPc, h]

/-! Framebuffer. -/

/-- The drawn cells of a sprite row (R213, R214). -/
theorem spriteRow_bit (b : Byte) (x0 px : Nat) :
    (spriteRow b x0).getLsbD px =
      (decide (px < 64 ∧ x0 ≤ px ∧ px < x0 + 8) && b.getLsbD (7 - (px - x0))) := by
  simp only [spriteRow, BitVec.getLsbD_shiftLeft, BitVec.getLsbD_setWidth,
    BitVec.getLsbD_reverse, BitVec.getMsbD_eq_getLsbD]
  by_cases h1 : px < 64
  · by_cases h2 : x0 ≤ px
    · by_cases h3 : px < x0 + 8
      · have : px - x0 < 8 := by omega
        have h4 : px - x0 < 64 := by omega
        simp [h1, h2, h3, this, h4, Nat.not_lt.mpr h2]
      · have : ¬(px - x0 < 8) := by omega
        simp [h1, h2, h3, this]
    · simp [h1, h2, Nat.lt_of_not_le h2]
  · simp [h1]

/-- One row of the frame after a sprite row is drawn. -/
theorem plotRow_row (b : Byte) (x0 y : Nat) (f : Frame) (r : Nat) (hr : r < 32) :
    (plotRow b x0 y f)[r] = if r = y then f[r] ^^^ spriteRow b x0 else f[r] := by
  unfold plotRow
  split
  · next h =>
    rw [Vector.getElem_set]
    by_cases hry : r = y
    · subst hry; simp
    · simp [hry, Ne.symm hry]
  · next h =>
    have : r ≠ y := by omega
    simp [this]

/-- Whether a sprite row hits depends only on its own row of the frame. -/
theorem rowHits_congr {b : Byte} {x0 y : Nat} {f g : Frame}
    (h : ∀ hy : y < 32, f[y] = g[y]) : rowHits b x0 y f = rowHits b x0 y g := by
  unfold rowHits
  split
  · next hy => rw [h hy]
  · rfl

/-- A draw: the OOB bit; every row is read, clipped or not (R213). -/
theorem drawRows_anom (base x0 y0 n : Nat) (s : State) :
    (drawRows base x0 y0 n s).2.anom =
      { s.anom with oob := s.anom.oob || decide (0 < n ∧ 4096 ≤ base + (n - 1)) } := by
  induction n with
  | zero => simp [drawRows]
  | succ n ih =>
    simp only [drawRows, memRead, noteOob_anom, ih, Bool.or_assoc]
    congr 1
    rw [Bool.eq_iff_iff]
    cases s.anom.oob <;> simp; omega

/-- A draw: every row of the frame after it (R211). -/
theorem drawRows_row (base x0 y0 : Nat) (s : State) (n r : Nat) (hr : r < 32) :
    (drawRows base x0 y0 n s).2.fb[r] =
      if y0 ≤ r ∧ r < y0 + n then s.fb[r] ^^^ spriteRow (byteAt (base + (r - y0)) s) x0
      else s.fb[r] := by
  induction n with
  | zero =>
    have h : ¬(y0 ≤ r ∧ r < y0) := by omega
    simp [drawRows, h]
  | succ n ih =>
    simp only [drawRows, memRead, byteAt_congr (drawRows_mem base x0 y0 n s), noteOob_fb,
      plotRow_row _ _ _ _ r hr, ih]
    by_cases h : r = y0 + n
    · subst h; simp
    · have h2 : (y0 ≤ r ∧ r < y0 + (n + 1)) ↔ (y0 ≤ r ∧ r < y0 + n) := by omega
      simp [h, h2]

/-- A draw: the collision, which depends on the frame before the draw only, since the rows of one draw
do not overlap (R211, R215). -/
theorem drawRows_hit (base x0 y0 : Nat) (s : State) (n : Nat) :
    (drawRows base x0 y0 n s).1 =
      (List.range n).any (fun k => rowHits (byteAt (base + k) s) x0 (y0 + k) s.fb) := by
  induction n with
  | zero => rfl
  | succ n ih =>
    simp only [drawRows, memRead, byteAt_congr (drawRows_mem base x0 y0 n s), noteOob_fb, ih,
      List.range_succ, List.any_append, List.any_cons, List.any_nil, Bool.or_false]
    congr 1
    refine rowHits_congr (fun hy => ?_)
    rw [drawRows_row _ _ _ _ _ _ hy, if_neg (by omega)]

/-- A row hits exactly when some column of it is drawn on a cell that is on (R215). -/
theorem rowHits_iff (b : Byte) (x0 y : Nat) (f : Frame) :
    rowHits b x0 y f = true ↔
      ∃ px, Frame.cell f px y = true ∧ (spriteRow b x0).getLsbD px = true := by
  unfold rowHits Frame.cell
  split
  · next h =>
    rw [bne_iff_ne]
    constructor
    · intro hne
      by_contra hc
      push Not at hc
      refine hne (BitVec.eq_of_getLsbD_eq (fun i _ => ?_))
      have := hc i
      simpa using this
    · rintro ⟨px, h1, h2⟩ hz
      have : (f[y] &&& spriteRow b x0).getLsbD px = true := by
        rw [BitVec.getLsbD_and, h1, h2]; rfl
      rw [hz] at this
      simp at this
  · simp

/-! Keypad. -/

/-- The lowest-numbered key that is down: down itself, with none below it (R233). -/
theorem lowestKeyFrom_spec (key : Word) (n : Nat) (hn : n ≤ 16) :
    match lowestKeyFrom key n with
    | none => ∀ j, 16 - n ≤ j → key.getLsbD j = false
    | some k => k < 16 ∧ 16 - n ≤ k ∧ key.getLsbD k = true ∧
        ∀ j, 16 - n ≤ j → j < k → key.getLsbD j = false := by
  induction n with
  | zero =>
    intro j hj
    exact BitVec.getLsbD_of_ge _ _ (by omega)
  | succ n ih =>
    have ih := ih (by omega)
    unfold lowestKeyFrom
    by_cases h : key.getLsbD (15 - n) = true
    · simp only [h, if_true]
      exact ⟨by omega, by omega, trivial, fun j h1 h2 => by omega⟩
    · simp only [h, Bool.false_eq_true, if_false]
      have hj0 : ∀ j, 16 - (n + 1) ≤ j → ¬(16 - n ≤ j) → key.getLsbD j = false := by
        intro j h1 h2
        have : j = 15 - n := by omega
        subst this; simpa using h
      cases hk : lowestKeyFrom key n with
      | none =>
        rw [hk] at ih
        intro j hj
        by_cases h2 : 16 - n ≤ j
        · exact ih j h2
        · exact hj0 j hj h2
      | some k =>
        rw [hk] at ih
        obtain ⟨a, b, c, d⟩ := ih
        refine ⟨a, by omega, c, fun j h1 h2 => ?_⟩
        by_cases h3 : 16 - n ≤ j
        · exact d j h3 h2
        · exact hj0 j h1 h3

/-- No key is down exactly when the latch is zero. -/
theorem lowestKey_eq_none {key : Word} : lowestKey key = none ↔ key = 0x0000#16 := by
  have h := lowestKeyFrom_spec key 16 (by omega)
  constructor
  · intro hn
    rw [lowestKey] at hn
    rw [hn] at h
    refine BitVec.eq_of_getLsbD_eq (fun j _ => ?_)
    simpa using h j (by omega)
  · rintro rfl; decide

/-- What it means to be the key that LD Vx, K stores. -/
theorem lowestKey_eq_some {key : Word} {k : Nat} (hk : lowestKey key = some k) :
    k < 16 ∧ key.getLsbD k = true ∧ ∀ j, j < k → key.getLsbD j = false := by
  have h := lowestKeyFrom_spec key 16 (by omega)
  rw [lowestKey] at hk
  rw [hk] at h
  exact ⟨h.1, h.2.2.1, fun j hj => h.2.2.2 j (by omega) hj⟩

/-- Stepping `pc` back by 2 changes `pc` only: the value written is below 4096 (R233). -/
theorem holdPc_spec (s : State) :
    holdPc s = { s with pc := BitVec.ofNat 16 ((s.pc.toNat + 4096 - 2) % 4096) } := by
  have h1 : ¬(4096 ≤ (s.pc - 2).toNat % 4096) := by omega
  have h2 : (s.pc - 2).toNat % 4096 % 4096 = (s.pc.toNat + 4096 - 2) % 4096 := by
    have h3 : (2 : Word).toNat = 2 := rfl
    rw [BitVec.toNat_sub, h3]; omega
  simp only [holdPc, writePc, noteOob, h1, h2, decide_false, note_false]

/-- LD Vx, K with no key down. -/
theorem waitKey_of_none {x : RegIx} {s : State} (h : s.key = 0x0000) :
    waitKey x s = holdPc s := by simp [waitKey, lowestKey_eq_none.mpr h]

/-- LD Vx, K with a key down: the lowest-numbered one. -/
theorem waitKey_of_some {x : RegIx} {s : State} (h : s.key ≠ 0x0000) :
    ∃ k < 16, s.key.getLsbD k = true ∧ (∀ j < k, s.key.getLsbD j = false) ∧
      waitKey x s = writeReg x (BitVec.ofNat 8 k) s := by
  cases hk : lowestKey s.key with
  | none => exact absurd (lowestKey_eq_none.mp hk) h
  | some k =>
    obtain ⟨h1, h2, h3⟩ := lowestKey_eq_some hk
    exact ⟨k, h1, h2, h3, by simp [waitKey, hk]⟩

end Sys2Proof.Machine
end

