-- ==== Sys2Proof/Laws/Cycle.lean ====
section
/-! SUPPORT. The cycle: what fetch and advance do, the entered state field by field, and inversion of a
cycle. -/

namespace Sys2Proof.Machine

/-! The cycle. -/

/-- The fetch: the two bytes at `pc` and `pc + 1`, the OOB bit, and nothing else (R121). -/
theorem fetch_spec (s : State) :
    (fetch s).1 = wordAtPc s ∧
    (fetch s).2 = noteOob (s.pc.toNat + 1) (noteOob s.pc.toNat s) := ⟨rfl, rfl⟩

/-- Fetch and advance together: `pc` advanced, OOB recorded, nothing else. -/
theorem advance_fetch (s : State) :
    advance (fetch s).2 =
      { s with
        pc := BitVec.ofNat 16 ((s.pc.toNat + 2) % 4096)
        anom := { s.anom with oob := s.anom.oob || decide (4096 ≤ s.pc.toNat + 2) } } := by
  have h (o : Bool) (n : Nat) :
      ((o || decide (4096 ≤ n)) || decide (4096 ≤ n + 1) || decide (4096 ≤ n + 2)) =
        (o || decide (4096 ≤ n + 2)) := by
    cases o
    · rw [Bool.eq_iff_iff]
      simp only [Bool.false_or, Bool.or_eq_true, decide_eq_true_eq]
      omega
    · rfl
  rw [← h s.anom.oob s.pc.toNat]
  rfl

/-- The state in which step 4 begins: inputs latched, `pc` advanced, OOB recorded, nothing else. -/
theorem enter_spec (inp : CycleInput) (s : State) :
    enter inp s =
      { s with
        pc := BitVec.ofNat 16 ((s.pc.toNat + 2) % 4096)
        key := inp.key
        rnd := inp.rnd
        started := true
        anom := { s.anom with oob := s.anom.oob || decide (4096 ≤ s.pc.toNat + 2) } } := by
  rw [enter, advance_fetch]; rfl

/-- The opcode does not depend on the inputs (R123). -/
theorem fetch_latch_word (inp : CycleInput) (s : State) :
    (fetch (latch inp s)).1 = wordAtPc s := rfl

/-! `enter`, field by field. -/

@[simp] theorem enter_v (inp : CycleInput) (s : State) :
    (enter inp s).v = s.v := by
  rw [enter_spec]

@[simp] theorem enter_pc (inp : CycleInput) (s : State) :
    (enter inp s).pc = BitVec.ofNat 16 ((s.pc.toNat + 2) % 4096) := by
  rw [enter_spec]

@[simp] theorem enter_idx (inp : CycleInput) (s : State) :
    (enter inp s).idx = s.idx := by
  rw [enter_spec]

@[simp] theorem enter_stack (inp : CycleInput) (s : State) :
    (enter inp s).stack = s.stack := by
  rw [enter_spec]

@[simp] theorem enter_sp (inp : CycleInput) (s : State) :
    (enter inp s).sp = s.sp := by
  rw [enter_spec]

@[simp] theorem enter_dt (inp : CycleInput) (s : State) :
    (enter inp s).dt = s.dt := by
  rw [enter_spec]

@[simp] theorem enter_st (inp : CycleInput) (s : State) :
    (enter inp s).st = s.st := by
  rw [enter_spec]

@[simp] theorem enter_mem (inp : CycleInput) (s : State) :
    (enter inp s).mem = s.mem := by
  rw [enter_spec]

@[simp] theorem enter_fb (inp : CycleInput) (s : State) :
    (enter inp s).fb = s.fb := by
  rw [enter_spec]

@[simp] theorem enter_key (inp : CycleInput) (s : State) :
    (enter inp s).key = inp.key := by
  rw [enter_spec]

@[simp] theorem enter_anom (inp : CycleInput) (s : State) :
    (enter inp s).anom = { s.anom with oob := s.anom.oob || decide (4096 ≤ s.pc.toNat + 2) } := by
  rw [enter_spec]

@[simp] theorem enter_rnd (inp : CycleInput) (s : State) :
    (enter inp s).rnd = inp.rnd := by
  rw [enter_spec]

@[simp] theorem enter_inputs (inp : CycleInput) (s : State) :
    (enter inp s).inputs = s.inputs := by
  rw [enter_spec]

@[simp] theorem enter_inputNo (inp : CycleInput) (s : State) :
    (enter inp s).inputNo = s.inputNo := by
  rw [enter_spec]

@[simp] theorem enter_started (inp : CycleInput) (s : State) :
    (enter inp s).started = true := by
  rw [enter_spec]

/-- One count of a timer, as arithmetic: it stops at zero (R126). -/
theorem toNat_countDown (t : Byte) : (countDown t).toNat = t.toNat - 1 := by
  have h1 : (1 : Byte).toNat = 1 := rfl
  have h2 := t.isLt
  unfold countDown
  split
  · rw [BitVec.toNat_sub, h1]; omega
  · omega

/-- A cycle executes the decoded word at `pc` in the entered state and then decays the timers (R120). -/
theorem cycle_eq (inp : CycleInput) (s : State) :
    cycle inp s = thenDecay (exec (decodeWord (wordAtPc s)) (enter inp s)) := rfl

/-- A cycle whose instruction completes. -/
theorem cycle_of_exec {inp : CycleInput} {s t : State}
    (h : exec (decodeWord (wordAtPc s)) (enter inp s) = .next t) :
    cycle inp s = .next (decay t) := by
  rw [cycle_eq, h]; rfl

/-- If a cycle answers a next state, it is the decay of what its instruction left. -/
theorem exec_of_cycle {inp : CycleInput} {s t : State} (h : cycle inp s = .next t) :
    ∃ u, exec (decodeWord (wordAtPc s)) (enter inp s) = .next u ∧ t = decay u := by
  rw [cycle_eq] at h
  cases hu : exec (decodeWord (wordAtPc s)) (enter inp s) with
  | next u => rw [hu] at h; injection h with h; exact ⟨u, rfl, h.symm⟩
  | fault r => rw [hu] at h; cases h
  | refused r => rw [hu] at h; cases h

/-- Taking the inputs of a step does not change what it fetches. -/
theorem wordAtPc_takeInput (s : State) : wordAtPc (takeInput s) = wordAtPc s := rfl

end Sys2Proof.Machine
end

