-- ==== Sys2Proof/Laws/Decode.lean ====
section
/-! SUPPORT. The words that the encoder builds as numbers, and the fields of a word. -/

namespace Sys2Proof

/-- Concatenation as arithmetic. -/
theorem toNat_append_eq {v w : Nat} (a : BitVec v) (b : BitVec w) :
    (a ++ b).toNat = a.toNat * 2 ^ w + b.toNat := by
  rw [BitVec.toNat_append, ← Nat.shiftLeft_add_eq_or_of_lt b.isLt, Nat.shiftLeft_eq]

theorem toNat_wordXYN (f : BitVec 4) (x y : RegIx) (n : BitVec 4) :
    (wordXYN f x y n).toNat = f.toNat * 4096 + x.toNat * 256 + y.toNat * 16 + n.toNat := by
  have h : (wordXYN f x y n).toNat = _ := toNat_append_eq (f ++ x ++ y) n
  rw [h, toNat_append_eq, toNat_append_eq]; omega

theorem toNat_wordXKK (f : BitVec 4) (x : RegIx) (kk : Byte) :
    (wordXKK f x kk).toNat = f.toNat * 4096 + x.toNat * 256 + kk.toNat := by
  have h : (wordXKK f x kk).toNat = _ := toNat_append_eq (f ++ x) kk
  rw [h, toNat_append_eq]; omega

theorem toNat_wordNNN (f : BitVec 4) (nnn : BitVec 12) :
    (wordNNN f nnn).toNat = f.toNat * 4096 + nnn.toNat := toNat_append_eq f nnn

theorem toNat_wordFam0 (mid : BitVec 8) (n : BitVec 4) :
    (wordFam0 mid n).toNat = mid.toNat * 16 + n.toNat := by
  have h : (wordFam0 mid n).toNat = _ := toNat_append_eq (0x0#4 ++ mid) n
  rw [h, toNat_append_eq]; simp

theorem toNat_opcodeOf (hi lo : Byte) : (opcodeOf hi lo).toNat = hi.toNat * 256 + lo.toNat :=
  toNat_append_eq hi lo

/-! The fields as arithmetic (R91). -/

theorem toNat_famOf (op : Word) : (famOf op).toNat = op.toNat / 4096 := by
  have := op.isLt
  simp [famOf, Nat.shiftRight_eq_div_pow]; omega

theorem toNat_xOf (op : Word) : (xOf op).toNat = op.toNat / 256 % 16 := by
  simp [xOf, Nat.shiftRight_eq_div_pow]

theorem toNat_yOf (op : Word) : (yOf op).toNat = op.toNat / 16 % 16 := by
  simp [yOf, Nat.shiftRight_eq_div_pow]

theorem toNat_nOf (op : Word) : (nOf op).toNat = op.toNat % 16 := by simp [nOf]

theorem toNat_kkOf (op : Word) : (kkOf op).toNat = op.toNat % 256 := by simp [kkOf]

theorem toNat_nnnOf (op : Word) : (nnnOf op).toNat = op.toNat % 4096 := by simp [nnnOf]

theorem toNat_midOf (op : Word) : (midOf op).toNat = op.toNat / 16 % 256 := by
  simp [midOf, Nat.shiftRight_eq_div_pow]

theorem toNat_hiByte (op : Word) : (hiByte op).toNat = op.toNat / 256 := by
  have := op.isLt
  simp [hiByte, Nat.shiftRight_eq_div_pow]; omega

theorem toNat_loByte (op : Word) : (loByte op).toNat = op.toNat % 256 := by simp [loByte]

/-- The two bytes of an opcode put together again (R65). -/
@[simp] theorem opcodeOf_bytes (op : Word) : opcodeOf (hiByte op) (loByte op) = op := by
  apply BitVec.eq_of_toNat_eq
  rw [toNat_opcodeOf, toNat_hiByte, toNat_loByte]; omega

/-! The fields of the words that the encoder builds. -/

@[simp] theorem famOf_wordXYN (f : BitVec 4) (x y : RegIx) (n : BitVec 4) :
    famOf (wordXYN f x y n) = f := by
  apply BitVec.eq_of_toNat_eq; rw [toNat_famOf, toNat_wordXYN]; omega

@[simp] theorem xOf_wordXYN (f : BitVec 4) (x y : RegIx) (n : BitVec 4) :
    xOf (wordXYN f x y n) = x := by
  apply BitVec.eq_of_toNat_eq; rw [toNat_xOf, toNat_wordXYN]; omega

@[simp] theorem yOf_wordXYN (f : BitVec 4) (x y : RegIx) (n : BitVec 4) :
    yOf (wordXYN f x y n) = y := by
  apply BitVec.eq_of_toNat_eq; rw [toNat_yOf, toNat_wordXYN]; omega

@[simp] theorem nOf_wordXYN (f : BitVec 4) (x y : RegIx) (n : BitVec 4) :
    nOf (wordXYN f x y n) = n := by
  apply BitVec.eq_of_toNat_eq; rw [toNat_nOf, toNat_wordXYN]; omega

@[simp] theorem famOf_wordXKK (f : BitVec 4) (x : RegIx) (kk : Byte) :
    famOf (wordXKK f x kk) = f := by
  apply BitVec.eq_of_toNat_eq; rw [toNat_famOf, toNat_wordXKK]; omega

@[simp] theorem xOf_wordXKK (f : BitVec 4) (x : RegIx) (kk : Byte) :
    xOf (wordXKK f x kk) = x := by
  apply BitVec.eq_of_toNat_eq; rw [toNat_xOf, toNat_wordXKK]; omega

@[simp] theorem kkOf_wordXKK (f : BitVec 4) (x : RegIx) (kk : Byte) :
    kkOf (wordXKK f x kk) = kk := by
  apply BitVec.eq_of_toNat_eq; rw [toNat_kkOf, toNat_wordXKK]; omega

@[simp] theorem famOf_wordNNN (f : BitVec 4) (nnn : BitVec 12) :
    famOf (wordNNN f nnn) = f := by
  apply BitVec.eq_of_toNat_eq; rw [toNat_famOf, toNat_wordNNN]; omega

@[simp] theorem nnnOf_wordNNN (f : BitVec 4) (nnn : BitVec 12) :
    nnnOf (wordNNN f nnn) = nnn := by
  apply BitVec.eq_of_toNat_eq; rw [toNat_nnnOf, toNat_wordNNN]; omega

theorem toNat_nOf_wordNNN (f : BitVec 4) (nnn : BitVec 12) :
    (nOf (wordNNN f nnn)).toNat = nnn.toNat % 16 := by
  rw [toNat_nOf, toNat_wordNNN]; omega

theorem toNat_kkOf_wordNNN (f : BitVec 4) (nnn : BitVec 12) :
    (kkOf (wordNNN f nnn)).toNat = nnn.toNat % 256 := by
  rw [toNat_kkOf, toNat_wordNNN]; omega

@[simp] theorem famOf_wordFam0 (mid : BitVec 8) (n : BitVec 4) :
    famOf (wordFam0 mid n) = 0x0#4 := by
  apply BitVec.eq_of_toNat_eq; rw [toNat_famOf, toNat_wordFam0]; simp; omega

@[simp] theorem midOf_wordFam0 (mid : BitVec 8) (n : BitVec 4) :
    midOf (wordFam0 mid n) = mid := by
  apply BitVec.eq_of_toNat_eq; rw [toNat_midOf, toNat_wordFam0]; omega

@[simp] theorem nOf_wordFam0 (mid : BitVec 8) (n : BitVec 4) :
    nOf (wordFam0 mid n) = n := by
  apply BitVec.eq_of_toNat_eq; rw [toNat_nOf, toNat_wordFam0]; omega

end Sys2Proof
end

