-- ==== Sys2Proof/Laws/PerInstr.lean ====
section
/-! SUPPORT. Statements made of every instruction, one lemma per constructor.

`EncodingRow`: the encoder puts the row's fixed bits (the "fixed" column of `spec/opcode_table.json`,
the mask and match of R102) where the table has them. -/

namespace Sys2Proof.Laws.EncodingRow

/-- The fixed bits of a row: the family, and the low nibble or the low byte where the row tests it. -/
structure Row where
  fam : BitVec 4
  low : Option (BitVec 4)
  byte : Option Byte

/-- The row of an instruction. -/
def row : Instr → Row
  | .sys _ => ⟨0x0, none, none⟩
  | .cls _ => ⟨0x0, some 0x0, none⟩
  | .ret _ => ⟨0x0, some 0xE, none⟩
  | .jp _ => ⟨0x1, none, none⟩
  | .call _ => ⟨0x2, none, none⟩
  | .seImm _ _ => ⟨0x3, none, none⟩
  | .sneImm _ _ => ⟨0x4, none, none⟩
  | .seReg _ _ _ => ⟨0x5, none, none⟩
  | .ldImm _ _ => ⟨0x6, none, none⟩
  | .addImm _ _ => ⟨0x7, none, none⟩
  | .ldReg _ _ => ⟨0x8, some 0x0, none⟩
  | .orReg _ _ => ⟨0x8, some 0x1, none⟩
  | .andReg _ _ => ⟨0x8, some 0x2, none⟩
  | .xorReg _ _ => ⟨0x8, some 0x3, none⟩
  | .addReg _ _ => ⟨0x8, some 0x4, none⟩
  | .subReg _ _ => ⟨0x8, some 0x5, none⟩
  | .shr _ _ => ⟨0x8, some 0x6, none⟩
  | .subnReg _ _ => ⟨0x8, some 0x7, none⟩
  | .shl _ _ => ⟨0x8, some 0xE, none⟩
  | .sneReg _ _ _ => ⟨0x9, none, none⟩
  | .ldI _ => ⟨0xA, none, none⟩
  | .jpV0 _ => ⟨0xB, none, none⟩
  | .rnd _ _ => ⟨0xC, none, none⟩
  | .drw _ _ _ => ⟨0xD, none, none⟩
  | .skp _ _ => ⟨0xE, some 0xE, none⟩
  | .sknp _ _ => ⟨0xE, some 0x1, none⟩
  | .ldVxDT _ => ⟨0xF, none, some 0x07⟩
  | .ldVxK _ => ⟨0xF, none, some 0x0A⟩
  | .ldDTVx _ => ⟨0xF, none, some 0x15⟩
  | .ldSTVx _ => ⟨0xF, none, some 0x18⟩
  | .addIVx _ => ⟨0xF, none, some 0x1E⟩
  | .ldFVx _ => ⟨0xF, none, some 0x29⟩
  | .ldBVx _ => ⟨0xF, none, some 0x33⟩
  | .ldMemVx _ => ⟨0xF, none, some 0x55⟩
  | .ldVxMem _ => ⟨0xF, none, some 0x65⟩
  | .nop8 _ => ⟨0x8, none, none⟩
  | .nopE _ => ⟨0xE, none, none⟩
  | .nopF _ => ⟨0xF, none, none⟩

def Statement (i : Instr) : Prop :=
  famOf (encode i) = (row i).fam ∧ (∀ n ∈ (row i).low, nOf (encode i) = n) ∧
    ∀ b ∈ (row i).byte, kkOf (encode i) = b

theorem sys (bits : BitVec 12) : Statement (.sys bits) := by
  simp [Statement, row, encode]

theorem cls (pad : BitVec 8) : Statement (.cls pad) := by
  simp [Statement, row, encode]

theorem ret (pad : BitVec 8) : Statement (.ret pad) := by
  simp [Statement, row, encode]

theorem jp (nnn : BitVec 12) : Statement (.jp nnn) := by
  simp [Statement, row, encode]

theorem call (nnn : BitVec 12) : Statement (.call nnn) := by
  simp [Statement, row, encode]

theorem seImm (x : RegIx) (kk : Byte) : Statement (.seImm x kk) := by
  simp [Statement, row, encode]

theorem sneImm (x : RegIx) (kk : Byte) : Statement (.sneImm x kk) := by
  simp [Statement, row, encode]

theorem seReg (x : RegIx) (y : RegIx) (pad : BitVec 4) : Statement (.seReg x y pad) := by
  simp [Statement, row, encode]

theorem ldImm (x : RegIx) (kk : Byte) : Statement (.ldImm x kk) := by
  simp [Statement, row, encode]

theorem addImm (x : RegIx) (kk : Byte) : Statement (.addImm x kk) := by
  simp [Statement, row, encode]

theorem ldReg (x : RegIx) (y : RegIx) : Statement (.ldReg x y) := by
  simp [Statement, row, encode]

theorem orReg (x : RegIx) (y : RegIx) : Statement (.orReg x y) := by
  simp [Statement, row, encode]

theorem andReg (x : RegIx) (y : RegIx) : Statement (.andReg x y) := by
  simp [Statement, row, encode]

theorem xorReg (x : RegIx) (y : RegIx) : Statement (.xorReg x y) := by
  simp [Statement, row, encode]

theorem addReg (x : RegIx) (y : RegIx) : Statement (.addReg x y) := by
  simp [Statement, row, encode]

theorem subReg (x : RegIx) (y : RegIx) : Statement (.subReg x y) := by
  simp [Statement, row, encode]

theorem shr (x : RegIx) (y : RegIx) : Statement (.shr x y) := by
  simp [Statement, row, encode]

theorem subnReg (x : RegIx) (y : RegIx) : Statement (.subnReg x y) := by
  simp [Statement, row, encode]

theorem shl (x : RegIx) (y : RegIx) : Statement (.shl x y) := by
  simp [Statement, row, encode]

theorem sneReg (x : RegIx) (y : RegIx) (pad : BitVec 4) : Statement (.sneReg x y pad) := by
  simp [Statement, row, encode]

theorem ldI (nnn : BitVec 12) : Statement (.ldI nnn) := by
  simp [Statement, row, encode]

theorem jpV0 (nnn : BitVec 12) : Statement (.jpV0 nnn) := by
  simp [Statement, row, encode]

theorem rnd (x : RegIx) (kk : Byte) : Statement (.rnd x kk) := by
  simp [Statement, row, encode]

theorem drw (x : RegIx) (y : RegIx) (n : BitVec 4) : Statement (.drw x y n) := by
  simp [Statement, row, encode]

theorem skp (x : RegIx) (pad : BitVec 4) : Statement (.skp x pad) := by
  simp [Statement, row, encode]

theorem sknp (x : RegIx) (pad : BitVec 4) : Statement (.sknp x pad) := by
  simp [Statement, row, encode]

theorem ldVxDT (x : RegIx) : Statement (.ldVxDT x) := by
  simp [Statement, row, encode]

theorem ldVxK (x : RegIx) : Statement (.ldVxK x) := by
  simp [Statement, row, encode]

theorem ldDTVx (x : RegIx) : Statement (.ldDTVx x) := by
  simp [Statement, row, encode]

theorem ldSTVx (x : RegIx) : Statement (.ldSTVx x) := by
  simp [Statement, row, encode]

theorem addIVx (x : RegIx) : Statement (.addIVx x) := by
  simp [Statement, row, encode]

theorem ldFVx (x : RegIx) : Statement (.ldFVx x) := by
  simp [Statement, row, encode]

theorem ldBVx (x : RegIx) : Statement (.ldBVx x) := by
  simp [Statement, row, encode]

theorem ldMemVx (x : RegIx) : Statement (.ldMemVx x) := by
  simp [Statement, row, encode]

theorem ldVxMem (x : RegIx) : Statement (.ldVxMem x) := by
  simp [Statement, row, encode]

theorem nop8 (bits : BitVec 12) : Statement (.nop8 bits) := by
  simp [Statement, row, encode]

theorem nopE (bits : BitVec 12) : Statement (.nopE bits) := by
  simp [Statement, row, encode]

theorem nopF (bits : BitVec 12) : Statement (.nopF bits) := by
  simp [Statement, row, encode]

end Sys2Proof.Laws.EncodingRow
end

