-- ==== Sys2Proof/Tests/Slice0.lean ====
section
/-! SUPPORT. Tests by evaluation: decoding of words written out from the patterns of R102, single cycles
whose results are the T-vectors of `95_test_vectors.md` (named in each comment), the smoke test of
`WellFormed`, and for every obligation with hypotheses a witness that meets them. -/

namespace Sys2Proof.Tests

/- The theorems of this file one after another: each has a thread of its own otherwise. -/
set_option Elab.async false

open Sys2Proof Sys2Proof.Machine

/-! Well-formedness: an ill-formed term for each check is refused, and its neighbour is not. -/

theorem test_wf_sys : (Instr.sys 0x0E0).wellFormed = false ∧ (Instr.sys 0x0EE).wellFormed = false ∧
    (Instr.sys 0x0E1).wellFormed = true := by decide

theorem test_wf_nop8 : (Instr.nop8 0x127).wellFormed = false ∧
    (Instr.nop8 0x12E).wellFormed = false ∧ (Instr.nop8 0x128).wellFormed = true := by decide

theorem test_wf_nopE : (Instr.nopE 0x1A1).wellFormed = false ∧
    (Instr.nopE 0x19E).wellFormed = false ∧ (Instr.nopE 0x1A2).wellFormed = true := by decide

theorem test_wf_nopF : (Instr.nopF 0x155).wellFormed = false ∧
    (Instr.nopF 0x165).wellFormed = false ∧ (Instr.nopF 0x175).wellFormed = true := by decide

/-! Decoding: every row of R102, bits written out from its pattern. -/

theorem test_decode_family0 :
    decodeWord 0b0000000100100011 = .sys 0x123 ∧ decodeWord 0b0000000011100000 = .cls 0x0E ∧
    decodeWord 0b0000000011101110 = .ret 0x0E ∧ decodeWord 0b0000111111111110 = .ret 0xFF := by
  decide

theorem test_decode_jumps :
    decodeWord 0b0001101010111100 = .jp 0xABC ∧ decodeWord 0b0010001000010000 = .call 0x210 ∧
    decodeWord 0b1011001100000000 = .jpV0 0x300 := by decide

theorem test_decode_skips :
    decodeWord 0b0011001100101010 = .seImm 0x3 0x2A ∧
    decodeWord 0b0100001100101010 = .sneImm 0x3 0x2A ∧
    decodeWord 0b0101000100100000 = .seReg 0x1 0x2 0x0 ∧
    decodeWord 0b0101000100101111 = .seReg 0x1 0x2 0xF ∧
    decodeWord 0b1001000100100000 = .sneReg 0x1 0x2 0x0 := by decide

theorem test_decode_immediates :
    decodeWord 0b0110000000000101 = .ldImm 0x0 0x05 ∧
    decodeWord 0b0111001000000101 = .addImm 0x2 0x05 ∧
    decodeWord 0b1100001100001111 = .rnd 0x3 0x0F ∧
    decodeWord 0b1010001100000000 = .ldI 0x300 ∧
    decodeWord 0b1101000000010101 = .drw 0x0 0x1 0x5 := by decide

theorem test_decode_family8 :
    decodeWord 0b1000000100100000 = .ldReg 0x1 0x2 ∧
    decodeWord 0b1000000100100001 = .orReg 0x1 0x2 ∧
    decodeWord 0b1000000100100010 = .andReg 0x1 0x2 ∧
    decodeWord 0b1000000100100011 = .xorReg 0x1 0x2 ∧
    decodeWord 0b1000000100100100 = .addReg 0x1 0x2 ∧
    decodeWord 0b1000000100100101 = .subReg 0x1 0x2 ∧
    decodeWord 0b1000010001010110 = .shr 0x4 0x5 ∧
    decodeWord 0b1000000100100111 = .subnReg 0x1 0x2 ∧
    decodeWord 0b1000010001011110 = .shl 0x4 0x5 ∧
    decodeWord 0b1000000100101000 = .nop8 0x128 := by decide

theorem test_decode_familyE :
    decodeWord 0b1110010110011110 = .skp 0x5 0x9 ∧ decodeWord 0b1110010110100001 = .sknp 0x5 0xA ∧
    decodeWord 0b1110010100001110 = .skp 0x5 0x0 ∧ decodeWord 0b1110000110100010 = .nopE 0x1A2 := by
  decide

theorem test_decode_familyF :
    decodeWord 0b1111001100000111 = .ldVxDT 0x3 ∧ decodeWord 0b1111000100001010 = .ldVxK 0x1 ∧
    decodeWord 0b1111000000010101 = .ldDTVx 0x0 ∧ decodeWord 0b1111000000011000 = .ldSTVx 0x0 ∧
    decodeWord 0b1111001000011110 = .addIVx 0x2 ∧ decodeWord 0b1111000000101001 = .ldFVx 0x0 ∧
    decodeWord 0b1111000000110011 = .ldBVx 0x0 ∧ decodeWord 0b1111001001010101 = .ldMemVx 0x2 ∧
    decodeWord 0b1111001001100101 = .ldVxMem 0x2 ∧ decodeWord 0b1111000111111111 = .nopF 0x1FF := by
  decide

/-- The first byte is the high byte (R65), the bytes after an instruction are left alone, and a list
without two bytes is rejected by name. -/
theorem test_decode_bytes :
    decode [0x60, 0x05, 0xFF] = .ok (.ldImm 0x0 0x05, [0xFF]) ∧
    decode [0x60] = .error .truncated ∧ decode [] = .error .truncated ∧
    decodeTableWord 16 0x6005 = some (.ldImm 0x0 0x05) := by decide

theorem test_encode_bytes :
    encodeBytes (.ldImm 0x0 0x05) = [0x60, 0x05] ∧ encodeBytes (.cls 0x0E) = [0x00, 0xE0] ∧
    encodeBytes (.ret 0x0E) = [0x00, 0xEE] ∧ encodeBytes (.sknp 0x5 0xA) = [0xE5, 0xA1] ∧
    encodeBytes (.ldMemVx 0x2) = [0xF2, 0x55] := by decide

/-! One cycle on a small state. -/

/-- The state with the word under test at `pc`, and the inputs of the next cycle. -/
def ready (pc w : Nat) (key : Word) (rnd : Byte) (s : State) : State :=
  { s with pc := BitVec.ofNat 16 pc, inputs := [⟨key, rnd⟩] }.withFetchWord 16 w

/-- Registers set, the rest as after reset. -/
def regs : List (RegIx × Byte) → State
  | [] => State.reset
  | (r, b) :: rest => writeReg r b (regs rest)

/-- Memory bytes set in a state. -/
def mems : List (Nat × Byte) → State → State
  | [], s => s
  | (a, b) :: rest, s => memWrite a b (mems rest s)

/-- What is observed of the state after one step. -/
def after {α : Type} (s : State) (f : State → α) : Option α :=
  match step s with
  | .next t => some (f t)
  | _ => none

/-- The word at 0x200, no key, no random byte: the convention of the vectors. -/
def at200 (w : Nat) (s : State) : State := ready 0x200 w 0x0000 0x00 s

/-- The rows of the framebuffer that are not all off, top row first: bit `x` is column `x`. -/
def lit (s : State) : List Nat := (s.fb.toList.map (fun r => r.toNat)).filter (fun n => n != 0)

/-- T-C1. -/
theorem test_sys : after (at200 0x0123 { State.reset with dt := 0x05 })
    (fun t => (t.pc, t.dt)) = some (0x202, 0x04) := by decide +kernel

/-- T-C3. -/
theorem test_nop8 : after (at200 0x8128 (regs [(1, 0x01), (2, 0x02)]))
    (fun t => (t.pc, readReg 1 t, readReg vf t)) = some (0x202, 0x01, 0x00) := by decide +kernel

/-- T-C4. -/
theorem test_nopE : after (at200 0xE1A2 State.reset) (fun t => t.pc) = some 0x202 := by
  decide +kernel

/-- T-C6. -/
theorem test_nopF : after (at200 0xF130 (regs [(1, 0x09)]))
    (fun t => (t.pc, t.idx, readReg 1 t)) = some (0x202, 0x000, 0x09) := by decide +kernel

/-- T-C8: the advance wraps. -/
theorem test_advance_wraps : after (ready 0xFFE 0x6005 0x0000 0x00 State.reset)
    (fun t => (t.pc, readReg 0 t, anomBits t)) = some (0x000, 0x05, 0b100) := by decide +kernel

/-- T-C9: an opcode that lies across the end of memory. -/
theorem test_fetch_wraps : after (ready 0xFFF 0x6042 0x0000 0x00 State.reset)
    (fun t => (t.pc, readReg 0 t, anomBits t)) = some (0x001, 0x42, 0b100) := by decide +kernel

/-- T-F1. -/
theorem test_jp : after (at200 0x1ABC State.reset) (fun t => t.pc) = some 0xABC := by
  decide +kernel

/-- T-F3. -/
theorem test_call : after (ready 0x204 0x2210 0x0000 0x00 State.reset)
    (fun t => (t.pc, t.sp, stackEntry 0 t)) = some (0x210, 1, 0x206) := by decide +kernel

/-- T-F4. -/
theorem test_call_full : after (ready 0x204 0x2210 0x0000 0x00
      { State.reset with sp := 16, stack := Vector.ofFn (fun k => BitVec.ofNat 16 (0x300 + k)) })
    (fun t => (t.pc, t.sp, stackEntry 0 t, stackEntry 15 t, anomBits t)) =
      some (0x210, 16, 0x300, 0x30F, 0b001) := by decide +kernel

/-- T-F6 and, for the ignored bits, T-F8. -/
theorem test_ret :
    let s : State := { State.reset with sp := 1, stack := Vector.replicate 16 0x0206 }
    after (ready 0x212 0x00EE 0x0000 0x00 s) (fun t => (t.pc, t.sp, stackEntry 0 t)) =
      some (0x206, 0, 0x206) ∧
    after (ready 0x212 0x0FFE 0x0000 0x00 s) (fun t => (t.pc, t.sp)) = some (0x206, 0) := by
  decide +kernel

/-- T-F7. -/
theorem test_ret_empty : after (ready 0x212 0x00EE 0x0000 0x00 State.reset)
    (fun t => (t.pc, t.sp, anomBits t)) = some (0x214, 0, 0b010) := by decide +kernel

/-- T-F9 and T-F10. -/
theorem test_seImm :
    after (at200 0x332A (regs [(3, 0x2A)])) (fun t => t.pc) = some 0x204 ∧
    after (at200 0x332A (regs [(3, 0x2B)])) (fun t => t.pc) = some 0x202 := by decide +kernel

/-- T-F11 and T-F12. -/
theorem test_sneImm :
    after (at200 0x432A (regs [(3, 0x2A)])) (fun t => t.pc) = some 0x202 ∧
    after (at200 0x432A State.reset) (fun t => t.pc) = some 0x204 := by decide +kernel

/-- T-F14 and T-F15. -/
theorem test_seReg :
    after (ready 0x300 0x5120 0 0 (regs [(1, 0x07), (2, 0x08)])) (fun t => t.pc) = some 0x302 ∧
    after (ready 0x300 0x512F 0 0 (regs [(1, 0x07), (2, 0x07)])) (fun t => t.pc) = some 0x304 := by
  decide +kernel

/-- T-F16 and T-F18. -/
theorem test_sneReg :
    after (ready 0x300 0x9120 0 0 (regs [(1, 0x07), (2, 0x08)])) (fun t => t.pc) = some 0x304 ∧
    after (ready 0x300 0x9110 0 0 (regs [(1, 0x07)])) (fun t => t.pc) = some 0x302 := by
  decide +kernel

/-- T-F19 and T-F20. -/
theorem test_jpV0 :
    after (at200 0xB300 (regs [(0, 0x04)])) (fun t => (t.pc, anomBits t)) = some (0x304, 0) ∧
    after (at200 0xBFFF (regs [(0, 0xFF)])) (fun t => (t.pc, anomBits t)) = some (0x0FE, 0b100) := by
  decide +kernel

/-- T-F22 and T-F23. -/
theorem test_skip_wraps :
    after (ready 0xFFC 0x3000 0 0 State.reset) (fun t => (t.pc, anomBits t)) =
      some (0x000, 0b100) ∧
    after (ready 0xFFC 0x3001 0 0 State.reset) (fun t => (t.pc, anomBits t)) = some (0xFFE, 0) := by
  decide +kernel

/-- T-A28. -/
theorem test_ldImm : after (at200 0x6005 State.reset) (readReg 0) = some 0x05 := by decide +kernel

/-- T-A29. -/
theorem test_addImm : after (at200 0x7205 (regs [(2, 0xFE), (vf, 0x07)]))
    (fun t => (readReg 2 t, readReg vf t)) = some (0x03, 0x07) := by decide +kernel

/-- T-A31. -/
theorem test_ldReg : after (at200 0x8010 (regs [(1, 0x33)])) (readReg 0) = some 0x33 := by
  decide +kernel

/-- T-A32. -/
theorem test_orReg : after (at200 0x8011 (regs [(0, 0xF0), (1, 0x0F), (vf, 0x01)]))
    (fun t => (readReg 0 t, readReg vf t)) = some (0xFF, 0x01) := by decide +kernel

/-- T-A33. -/
theorem test_andReg : after (at200 0x8012 (regs [(0, 0xF3), (1, 0x3F), (vf, 0x01)]))
    (fun t => (readReg 0 t, readReg vf t)) = some (0x33, 0x01) := by decide +kernel

/-- T-A34. -/
theorem test_xorReg : after (at200 0x8013 (regs [(0, 0xFF), (1, 0x0F), (vf, 0x01)]))
    (fun t => (readReg 0 t, readReg vf t)) = some (0xF0, 0x01) := by decide +kernel

/-- T-A2 and T-A4. -/
theorem test_addReg :
    after (at200 0x8124 (regs [(1, 0xFF), (2, 0x01)])) (fun t => (readReg 1 t, readReg vf t)) =
      some (0x00, 0x01) ∧
    after (at200 0x8124 (regs [(1, 0x80), (2, 0x7F)])) (fun t => (readReg 1 t, readReg vf t)) =
      some (0xFF, 0x00) := by decide +kernel

/-- T-A7 and T-A8. -/
theorem test_addReg_vf :
    after (at200 0x8F14 (regs [(vf, 0x10), (1, 0x20)])) (readReg vf) = some 0x30 ∧
    after (at200 0x81F4 (regs [(1, 0xF0), (vf, 0x20)])) (fun t => (readReg 1 t, readReg vf t)) =
      some (0x10, 0x01) := by decide +kernel

/-- T-A9 and T-A11. -/
theorem test_subReg :
    after (at200 0x8125 (regs [(1, 0x10), (2, 0x20)])) (fun t => (readReg 1 t, readReg vf t)) =
      some (0xF0, 0x00) ∧
    after (at200 0x8125 (regs [(1, 0x33), (2, 0x33)])) (fun t => (readReg 1 t, readReg vf t)) =
      some (0x00, 0x01) := by decide +kernel

/-- T-A13. -/
theorem test_subReg_vf : after (at200 0x8F15 (regs [(vf, 0x05), (1, 0x03)])) (readReg vf) =
    some 0x02 := by decide +kernel

/-- T-A15 and T-A16. -/
theorem test_subnReg :
    after (at200 0x8127 (regs [(1, 0x10), (2, 0x20)])) (fun t => (readReg 1 t, readReg vf t)) =
      some (0x10, 0x01) ∧
    after (at200 0x8127 (regs [(1, 0x20), (2, 0x10)])) (fun t => (readReg 1 t, readReg vf t)) =
      some (0xF0, 0x00) := by decide +kernel

/-- T-A20 and T-A21. -/
theorem test_shr :
    after (at200 0x8406 (regs [(4, 0xFF)])) (fun t => (readReg 4 t, readReg vf t)) =
      some (0x7F, 0x01) ∧
    after (at200 0x8456 (regs [(4, 0x04), (5, 0xFF)]))
      (fun t => (readReg 4 t, readReg vf t, readReg 5 t)) = some (0x02, 0x00, 0xFF) := by
  decide +kernel

/-- T-A26 and T-A27. -/
theorem test_shl :
    after (at200 0x840E (regs [(4, 0x7F)])) (fun t => (readReg 4 t, readReg vf t)) =
      some (0xFE, 0x00) ∧
    after (at200 0x8F0E (regs [(vf, 0x81)])) (readReg vf) = some 0x02 := by decide +kernel

/-- T-A36. -/
theorem test_rnd : after (ready 0x200 0xC30F 0x0000 0xA7 State.reset) (readReg 3) = some 0x07 := by
  decide +kernel

/-- T-M1. -/
theorem test_ldI : after (at200 0xA300 State.reset) (fun t => t.idx) = some 0x300 := by
  decide +kernel

/-- T-M3 and T-M4. -/
theorem test_addIVx :
    after (at200 0xF21E { regs [(2, 0x01)] with idx := 0x0FFF }) (fun t => (t.idx, anomBits t)) =
      some (0x1000, 0) ∧
    after (at200 0xF21E { regs [(2, 0x02)] with idx := 0xFFFF })
      (fun t => (t.idx, readReg vf t, anomBits t)) = some (0x0001, 0x00, 0) := by decide +kernel

/-- T-M6 and T-M7. -/
theorem test_ldFVx :
    after (at200 0xF029 (regs [(0, 0x1A)])) (fun t => t.idx) = some 0x082 ∧
    after (at200 0xF029 (regs [(0, 0x0F)])) (fun t => t.idx) = some 0x09B := by decide +kernel

/-- T-M8 and T-M10. -/
theorem test_ldBVx :
    after (at200 0xF033 { regs [(0, 0xEA)] with idx := 0x300 })
      (fun t => (byteAt 0x300 t, byteAt 0x301 t, byteAt 0x302 t)) = some (0x02, 0x03, 0x04) ∧
    after (at200 0xF033 { regs [(0, 0x7B)] with idx := 0xFFE })
      (fun t => (byteAt 0xFFE t, byteAt 0xFFF t, byteAt 0x000 t, anomBits t)) =
        some (0x01, 0x02, 0x03, 0b100) := by decide +kernel

/-- T-M12. -/
theorem test_ldMemVx : after
    (at200 0xF255 { regs [(0, 0x11), (1, 0x22), (2, 0x33), (3, 0x44)] with idx := 0x400 })
    (fun t => (byteAt 0x400 t, byteAt 0x401 t, byteAt 0x402 t, byteAt 0x403 t, t.idx)) =
      some (0x11, 0x22, 0x33, 0x00, 0x400) := by decide +kernel

/-- T-M13 and T-M15. -/
theorem test_ldVxMem :
    after (at200 0xF265 (mems [(0x300, 0x02), (0x301, 0x03), (0x302, 0x04), (0x303, 0x05)]
        { regs [(3, 0x99)] with idx := 0x300 }))
      (fun t => (readReg 0 t, readReg 1 t, readReg 2 t, readReg 3 t, t.idx)) =
        some (0x02, 0x03, 0x04, 0x99, 0x300) ∧
    after (at200 0xF165 (mems [(0xFFF, 0xAA), (0x000, 0xBB)] { State.reset with idx := 0xFFF }))
      (fun t => (readReg 0 t, readReg 1 t, anomBits t)) = some (0xAA, 0xBB, 0b100) := by
  decide +kernel

/-- T-M14: the font as the program reads it. -/
theorem test_font_read : after (at200 0xFF65 { State.reset with idx := 0x050 })
    (fun t => t.v.toList) = some [0xF0, 0x90, 0x90, 0x90, 0xF0, 0x20, 0x60, 0x20, 0x20, 0x70,
      0xF0, 0x10, 0xF0, 0x80, 0xF0, 0xF0] := by decide +kernel

/-- T-C2 and T-D12. -/
theorem test_cls : after (at200 0x0000 { regs [(vf, 0x01)] with fb := Vector.replicate 32 2#64 })
    (fun t => (t.pc, lit t, readReg vf t)) = some (0x202, [], 0x01) := by decide +kernel

/-- T-D1, the document's glyph scenario S7: the five rows of the glyph `A`, no collision. -/
theorem test_drw_glyph : after (at200 0xD005 { State.reset with idx := 0x082 })
    (fun t => (lit t, pixel 0 0 t, pixel 3 1 t, pixel 1 1 t, readReg vf t)) =
      some ([0b1111, 0b1001, 0b1111, 0b1001, 0b1001], true, true, false, 0x00) := by decide +kernel

/-- T-D4: clipping at the corner, and T-D6: a collision. -/
theorem test_drw_clip_and_collide :
    after (at200 0xD015 { regs [(0, 0x3F), (1, 0x1F)] with idx := 0x082 })
      (fun t => (pixel 63 31 t, lit t, readReg vf t)) = some (true, [2 ^ 63], 0x00) ∧
    after (at200 0xD011 (mems [(0x300, 0xFF)]
        { State.reset with idx := 0x300, fb := Vector.ofFn (fun k => if k = 0 then 128#64 else 0) }))
      (fun t => (lit t, readReg vf t)) = some ([0b1111111], 0x01) := by decide +kernel

/-- T-D9 and T-D11. -/
theorem test_drw_vf_origin_and_clipped_read :
    after (at200 0xDF15 { regs [(vf, 0x02)] with idx := 0x082 })
      (fun t => (pixel 2 0 t, pixel 0 0 t, readReg vf t)) = some (true, false, 0x00) ∧
    after (at200 0xD012 (mems [(0xFFF, 0x80), (0x000, 0x40)] { regs [(1, 0x1F)] with idx := 0xFFF }))
      (fun t => (pixel 0 31 t, lit t, anomBits t)) = some (true, [1], 0b100) := by decide +kernel

/-- T-K3 and T-K4. -/
theorem test_skp :
    after (ready 0x200 0xE59E 0x0008 0 (regs [(5, 0x13)])) (fun t => (t.pc, anomBits t)) =
      some (0x204, 0) ∧
    after (ready 0x200 0xE50E 0x0008 0 (regs [(5, 0x03)])) (fun t => t.pc) = some 0x204 := by
  decide +kernel

/-- T-K5 and T-K6. -/
theorem test_sknp :
    after (ready 0x200 0xE5A1 0x0008 0 (regs [(5, 0x03)])) (fun t => t.pc) = some 0x202 ∧
    after (ready 0x200 0xE5A1 0x0000 0 (regs [(5, 0x03)])) (fun t => t.pc) = some 0x204 := by
  decide +kernel

/-- T-K8. -/
theorem test_ldVxDT : after (at200 0xF307 { State.reset with dt := 0x07 })
    (fun t => (readReg 3 t, t.dt)) = some (0x07, 0x06) := by decide +kernel

/-- T-K10 and T-K15: the block, also at the end of memory. -/
theorem test_ldVxK_blocked :
    after (ready 0x204 0xF10A 0x0000 0 { regs [(1, 0x77)] with dt := 0x05 })
      (fun t => (t.pc, readReg 1 t, t.dt)) = some (0x204, 0x77, 0x04) ∧
    after (ready 0xFFE 0xF10A 0x0000 0 State.reset) (fun t => (t.pc, anomBits t)) =
      some (0xFFE, 0b100) := by decide +kernel

/-- T-K12 and T-K14. -/
theorem test_ldVxK :
    after (ready 0x204 0xF10A 0x8008 0 State.reset) (fun t => (t.pc, readReg 1 t)) =
      some (0x206, 0x03) ∧
    after (ready 0x204 0xF10A 0x8000 0 State.reset) (fun t => (t.pc, readReg 1 t)) =
      some (0x206, 0x0F) := by decide +kernel

/-- T-K16 and T-K17. -/
theorem test_ldDTVx :
    after (at200 0xF015 (regs [(0, 0x03)])) (fun t => t.dt) = some 0x02 ∧
    after (at200 0xF015 { State.reset with dt := 0x05 }) (fun t => t.dt) = some 0x00 := by
  decide +kernel

/-- T-K19. -/
theorem test_ldSTVx : after (at200 0xF018 (regs [(0, 0x10)])) (fun t => (t.st, soundOn t)) =
    some (0x0F, true) := by decide +kernel

/-! Reset and load. -/

/-- What is observed of the state that an answer gives, if it is a next state. -/
def seen {α : Type} (r : Result) (f : State → α) : Option α :=
  match r with
  | .next t => some (f t)
  | _ => none

/-- T-R2, observed at 0x200 to 0x204 and in `pc`. -/
theorem test_load : seen (loadProgram [0x00, 0xE0, 0x60, 0x05] State.reset)
    (fun t => (t.pc, (List.range 5).map (fun k => byteAt (0x200 + k) t))) =
      some (0x200, [0x00, 0xE0, 0x60, 0x05, 0x00]) := by decide +kernel

/-- T-R5. -/
theorem test_load_empty : loadProgram [] State.reset = .next State.reset := rfl

/-- T-R4, and the refusal after a cycle (R286). -/
theorem test_load_rejected :
    loadProgram (List.replicate 3585 0x00) State.reset = .fault .romTooLarge ∧
    loadProgram [0x00] { State.reset with started := true } = .refused .loadAfterFirstCycle := by
  refine ⟨?_, rfl⟩
  rw [loadProgram, List.length_replicate]
  rfl

/-- T-R6: the second load overwrites the bytes it covers. -/
theorem test_load_twice : seen (loadProgram [0xAA, 0xBB, 0xCC, 0xDD] State.reset)
    (fun t => seen (loadProgram [0x11, 0x22] t)
      (fun u => (List.range 4).map (fun k => byteAt (0x200 + k) u))) =
      some (some [0x11, 0x22, 0xCC, 0xDD]) := by decide +kernel

/-- The canonical form: a byte written back to its reset content leaves no cell. -/
theorem test_memory_canonical :
    (memWrite 0x300 0x00 (memWrite 0x300 0x5A State.reset)).mem = [] ∧
    (memWrite 0x050 0xF0 (memWrite 0x1050 0x00 State.reset)).mem = [] := by decide +kernel

/-! Witnesses: the hypotheses of each obligation that has some are met together. -/

theorem witness_DecodeOfEncodeIsIdentity : (Instr.drw 0x0 0x1 0x5).wellFormed = true ∧
    (Instr.nop8 0xFFF).wellFormed = true := by decide

theorem witness_FamilyZeroDispatch :
    (famOf 0x00E0 = 0x0 ∧ nOf 0x00E0 = 0x0) ∧ (famOf 0x0FFE = 0x0 ∧ nOf 0x0FFE = 0xE) ∧
    (famOf 0x0FFF = 0x0 ∧ nOf 0x0FFF ≠ 0x0 ∧ nOf 0x0FFF ≠ 0xE) := by decide

theorem witness_FamilyEightDispatch :
    (∀ n : BitVec 4, famOf (wordXYN 0x8 0xF 0x1 n) = 0x8 ∧ nOf (wordXYN 0x8 0xF 0x1 n) = n) ∧
    nOf 0x8128 ∈ [0x8#4, 0x9, 0xA, 0xB, 0xC, 0xD, 0xF] ∧
    nOf 0x812F ∈ [0x8#4, 0x9, 0xA, 0xB, 0xC, 0xD, 0xF] := by decide

theorem witness_FamilyEDispatch :
    (famOf 0xE59E = 0xE ∧ nOf 0xE59E = 0xE) ∧ (famOf 0xE5F1 = 0xE ∧ nOf 0xE5F1 = 0x1) ∧
    (famOf 0xE5FF = 0xE ∧ nOf 0xE5FF ≠ 0xE ∧ nOf 0xE5FF ≠ 0x1) := by decide

theorem witness_FamilyFDispatch :
    (∀ kk ∈ [0x07#8, 0x0A, 0x15, 0x18, 0x1E, 0x29, 0x33, 0x55, 0x65],
      famOf (wordXKK 0xF 0xF kk) = 0xF ∧ kkOf (wordXKK 0xF 0xF kk) = kk) ∧
    (famOf 0xF1FF = 0xF ∧
      kkOf 0xF1FF ∉ [0x07#8, 0x0A, 0x15, 0x18, 0x1E, 0x29, 0x33, 0x55, 0x65]) := by decide

/-- One state for each of the four families. -/
theorem witness_NoOpsOnlyAdvanceAndDecay :
    IsNoOpWord (wordAtPc (at200 0x0FFF State.reset)) ∧
    IsNoOpWord (wordAtPc (at200 0x812F State.reset)) ∧
    IsNoOpWord (wordAtPc (at200 0xE5FF State.reset)) ∧
    IsNoOpWord (wordAtPc (ready 0xFFE 0xF1FF 0 0 State.reset)) :=
  ⟨.inl (by decide +kernel), .inr (.inl (by decide +kernel)),
    .inr (.inr (.inl (by decide +kernel))), .inr (.inr (.inr (by decide +kernel)))⟩

theorem witness_ReturnPopsOrRecordsUnderflow :
    ({ State.reset with sp := 1 }.Inv ∧ 0 < { State.reset with sp := 1 }.sp.toNat) ∧
    ({ State.reset with sp := 16 }.Inv ∧ 0 < { State.reset with sp := 16 }.sp.toNat) ∧
    (State.reset.Inv ∧ State.reset.sp.toNat = 0) := by decide

theorem witness_CallPushesOrRecordsOverflow :
    { State.reset with sp := 15 }.sp.toNat < 16 ∧ { State.reset with sp := 16 }.sp.toNat = 16 := by
  decide

theorem witness_CallThenReturnRestoresPcAndSp :
    ∃ s t u : State, s.sp.toNat = 15 ∧ s.sp.toNat < 16 ∧ s.pc.toNat < 4096 ∧
      exec (.call 0x210) s = .next t ∧ u.sp = t.sp ∧ (∀ k, stackEntry k u = stackEntry k t) :=
  ⟨{ State.reset with sp := 15 }, _, _, by decide, by decide, by decide, rfl, rfl, fun _ => rfl⟩

/-- A skip that is taken and one that is not, for the two conditions of each of the six skips. -/
theorem witness_skip_conditions :
    readReg 0x3 (regs [(3, 0x2A)]) = 0x2A ∧ readReg 0x3 (regs [(3, 0x2B)]) ≠ 0x2A ∧
    readReg 0x1 State.reset = readReg 0x2 State.reset ∧
    readReg 0x1 (regs [(1, 0x07)]) ≠ readReg 0x2 (regs [(1, 0x07)]) ∧
    (0x8000#16).getLsbD ((readReg 0x5 (regs [(5, 0xFF)])).toNat % 16) = true ∧
    (0x8000#16).getLsbD ((readReg 0x5 (regs [(5, 0x0E)])).toNat % 16) = false := by decide

/-- The premise of the flag clauses of the arithmetic and shift statements. -/
theorem witness_flag_destination : (0x0 : RegIx) ≠ vf ∧ (0xE : RegIx) ≠ vf := by decide

theorem witness_RandomByteUnderMask :
    wordAtPc (at200 0xC30F State.reset) = wordXKK 0xC 0x3 0x0F := by decide +kernel

theorem witness_BulkStoreThenLoadRestoresRegisters :
    ∃ s t u : State, exec (.ldMemVx 0xF) s = .next t ∧ u.mem = t.mem ∧ u.idx = t.idx :=
  ⟨{ State.reset with idx := 0xFFF }, _, _, rfl, rfl, rfl⟩

/-- Both collision premises: a drawn bit on a cell that is on, and none. -/
theorem witness_DrawTogglesCellsAndReportsCollision :
    (∃ px py, SpriteDraws 0x0 0x1 0x1 { State.reset with idx := 0x050, fb := Vector.replicate 32 1 }
        px py ∧ pixel px py { State.reset with idx := 0x050, fb := Vector.replicate 32 1 } = true) ∧
    ¬∃ px py, SpriteDraws 0x0 0x1 0x1 { State.reset with idx := 0x050 } px py ∧
      pixel px py { State.reset with idx := 0x050 } = true := by
  refine ⟨⟨0, 0, by decide +kernel, by decide +kernel⟩, ?_⟩
  rintro ⟨px, py, -, h⟩
  simp [pixel, Frame.cell, State.reset] at h

theorem witness_DrawingTwiceRestoresFramebuffer :
    ∃ s t u r : State, exec (.drw 0x0 0x1 0x5) s = .next t ∧
      u.fb = t.fb ∧ u.mem = s.mem ∧ u.idx = s.idx ∧
      (readReg 0x0 u).toNat % 64 = (readReg 0x0 s).toNat % 64 ∧
      (readReg 0x1 u).toNat % 32 = (readReg 0x1 s).toNat % 32 ∧
      exec (.drw 0x0 0x1 0x5) u = .next r :=
  ⟨{ State.reset with idx := 0x050 }, _, _, _, rfl, rfl, by decide +kernel, by decide +kernel,
    by decide +kernel, by decide +kernel, rfl⟩

theorem witness_SecondDrawCollidesIffSpriteHasAnUnclippedBit :
    ∃ s t r : State, (0x0 : RegIx) ≠ vf ∧ (0x1 : RegIx) ≠ vf ∧
      exec (.drw 0x0 0x1 0x5) s = .next t ∧ exec (.drw 0x0 0x1 0x5) t = .next r :=
  ⟨{ State.reset with idx := 0x050 }, _, _, by decide, by decide, rfl, rfl⟩

theorem witness_WaitForKeyHoldsOrStores :
    State.reset.key = 0x0000 ∧ { State.reset with key := 0x8000 }.key ≠ 0x0000 := by decide

theorem witness_BlockedCycleOnlyDecaysTimers :
    (ready 0xFFE 0xF10A 0 0 State.reset).pc.toNat < 4096 ∧
    (ready 0xFFE 0xF10A 0 0 State.reset).Blocked 0x0000 :=
  ⟨by decide, ⟨0x1, by decide +kernel⟩, rfl⟩

theorem witness_StepRunsDecodedInstruction :
    decode [byteAt 0xFFF (ready 0xFFF 0x6042 0 0 State.reset),
      byteAt (0xFFF + 1) (ready 0xFFF 0x6042 0 0 State.reset)] = .ok (.ldImm 0x0 0x42, []) ∧
    ∃ e t : State, exec (.ldImm 0x0 0x42) e = .next t := ⟨by decide +kernel, State.reset, _, rfl⟩

theorem witness_StepTakesTheOldestInput :
    ∃ t, (at200 0x6005 State.reset).inputs = [⟨0x0000, 0x00⟩] ∧
      step (at200 0x6005 State.reset) = .next t := ⟨_, rfl, rfl⟩

/-- Each clause: a word that loads neither timer, one that loads `DT`, one that loads `ST`. -/
theorem witness_TimersDecayOncePerCycle :
    (∃ t, cycle ⟨0, 0⟩ (at200 0x6005 State.reset) = .next t) ∧
    (∀ x, decodeWord (wordAtPc (at200 0x6005 State.reset)) ≠ .ldDTVx x) ∧
    (∀ x, decodeWord (wordAtPc (at200 0x6005 State.reset)) ≠ .ldSTVx x) ∧
    decodeWord (wordAtPc (at200 0xFF15 State.reset)) = .ldDTVx 0xF ∧
    decodeWord (wordAtPc (at200 0xF018 State.reset)) = .ldSTVx 0x0 :=
  ⟨⟨_, rfl⟩, by decide +kernel, by decide +kernel, by decide +kernel, by decide +kernel⟩

/-- The invariant holds at reset, and in a state with every bounded item at its bound. -/
theorem witness_invariant : State.reset.Inv ∧
    { State.reset with
      pc := 0xFFF, sp := 16, stack := Vector.replicate 16 0xFFF, mem := [(4095, 0xFF)] }.Inv := by
  decide

theorem witness_SelfJumpIsTheEndOfAProgram :
    (ready 0xFFE 0x1FFE 0 0 State.reset).pc.toNat = (0xFFE : BitVec 12).toNat ∧
    wordAtPc (ready 0xFFE 0x1FFE 0 0 State.reset) = wordNNN 0x1 0xFFE := by decide +kernel

theorem witness_StepKeepsInvariant :
    ∃ t, State.reset.Inv ∧ step State.reset = .next t := ⟨_, by decide, rfl⟩

theorem witness_ResetAndLoadMeetInvariant :
    ∃ t, State.reset.Inv ∧ loadProgram [0x60, 0x05] State.reset = .next t := ⟨_, by decide, rfl⟩

theorem witness_InstructionsWriteOnlyWhatTheTablesSay :
    ∃ t, exec (.addReg 0x1 0x2) State.reset = .next t := ⟨_, rfl⟩

theorem witness_InputsAreReadOnlyByTheirInstructions :
    (∃ t, exec (.rnd 0x1 0xFF) State.reset = .next t) ∧
    Instr.readsKey (.rnd 0x1 0xFF) = false ∧ (∃ t, exec (.skp 0x1 0x9) State.reset = .next t) ∧
    Instr.readsRnd (.skp 0x1 0x9) = false := ⟨⟨_, rfl⟩, rfl, ⟨_, rfl⟩, rfl⟩

/-- The sticky premises, and the causes at their bounds: CALL with `SP = 16`, RET with `SP = 0`. -/
theorem witness_AnomalyBitsAreStickyWithTheirCauses :
    (∃ t, cycle ⟨0, 0⟩ { State.reset with anom := ⟨true, true, true⟩ } = .next t) ∧
    ((∃ t, cycle ⟨0, 0⟩ (at200 0x2210 { State.reset with sp := 16 }) = .next t) ∧
      (at200 0x2210 { State.reset with sp := 16 }).anom.sovf = false ∧
      (at200 0x2210 { State.reset with sp := 16 }).sp.toNat ≤ 16 ∧
      decodeWord (wordAtPc (at200 0x2210 { State.reset with sp := 16 })) = .call 0x210) ∧
    ((∃ t, cycle ⟨0, 0⟩ (at200 0x00EE State.reset) = .next t) ∧
      (at200 0x00EE State.reset).anom.sunf = false ∧
      decodeWord (wordAtPc (at200 0x00EE State.reset)) = .ret 0x0E) :=
  ⟨⟨_, rfl⟩, ⟨⟨_, rfl⟩, rfl, by decide, by decide +kernel⟩, ⟨_, rfl⟩, rfl, by decide +kernel⟩

theorem witness_AnomalyRegisterAffectsNothingElse :
    EqButAnom State.reset { State.reset with anom := ⟨true, false, true⟩ } := rfl

theorem witness_LoadProgramCopiesTheImage :
    State.reset.started = false ∧ (List.replicate 3584 (0xFF : Byte)).length ≤ 3584 ∧
    3583 < (List.replicate 3584 (0xFF : Byte)).length := by
  rw [List.length_replicate]
  decide

theorem witness_LoadProgramRejections :
    (State.reset.started = false ∧ 3584 < (List.replicate 3585 (0xFF : Byte)).length) ∧
    { State.reset with started := true }.started = true ∧
    ∃ t, step State.reset = .next t :=
  ⟨⟨rfl, by rw [List.length_replicate]; decide⟩, rfl, _, rfl⟩

end Sys2Proof.Tests
end

/-! PROOF. What each shared operation and each instruction leaves unchanged (rules R23 to
R33 and R67), in the vocabulary of `Sys2Proof/Safety.lean`. -/

namespace Sys2Proof.Machine

/-! Frames compose. -/

theorem OnlyRegs.trans {rs : List RegIx} {s t u : State} (h₁ : OnlyRegs rs s t)
    (h₂ : OnlyRegs rs t u) : OnlyRegs rs s u := fun r hr => (h₂ r hr).trans (h₁ r hr)

/-- An operation that leaves the register file alone writes no register. -/
theorem OnlyRegs.of_v_eq {rs : List RegIx} {s t : State} (h : t.v = s.v) : OnlyRegs rs s t :=
  fun r _ => readReg_congr h r

theorem Keeps.trans {p : Part} {s t u : State} (h₁ : Keeps p s t) (h₂ : Keeps p t u) :
    Keeps p s u := by
  cases p with
  | stack => exact ⟨h₂.1.trans h₁.1, fun k => (h₂.2 k).trans (h₁.2 k)⟩
  | mem => exact fun a => (h₂ a).trans (h₁ a)
  | fb => exact fun x y => (h₂ x y).trans (h₁ x y)
  | _ => exact Eq.trans h₂ h₁

theorem SameInputs.trans {s t u : State} (h₁ : SameInputs s t) (h₂ : SameInputs t u) :
    SameInputs s u := by
  obtain ⟨hkey, hrnd, hinputs, hno, hstarted⟩ := h₁
  obtain ⟨hkey', hrnd', hinputs', hno', hstarted'⟩ := h₂
  exact ⟨hkey'.trans hkey, hrnd'.trans hrnd, hinputs'.trans hinputs, hno'.trans hno,
    hstarted'.trans hstarted⟩

theorem KeepsAllBut.refl (ps : List Part) (s : State) : KeepsAllBut ps s s :=
  ⟨⟨rfl, rfl, rfl, rfl, rfl⟩, fun p _ => by cases p <;> simp [Keeps]⟩

theorem KeepsAllBut.mono {ps qs : List Part} {s t : State} (h : KeepsAllBut ps s t)
    (hsub : ps ⊆ qs) : KeepsAllBut qs s t :=
  ⟨h.1, fun p hp => h.2 p (fun hmem => hp (hsub hmem))⟩

theorem KeepsAllBut.trans {ps : List Part} {s t u : State} (h₁ : KeepsAllBut ps s t)
    (h₂ : KeepsAllBut ps t u) : KeepsAllBut ps s u :=
  ⟨h₁.1.trans h₂.1, fun p hp => (h₁.2 p hp).trans (h₂.2 p hp)⟩

/-! What an equality of fields says of a part that is compared by its contents. -/

theorem keeps_stack_of_eq {s t : State} (hsp : t.sp = s.sp) (hstack : t.stack = s.stack) :
    Keeps .stack s t := ⟨hsp, fun k => by simp [stackEntry, hstack]⟩

theorem keeps_mem_of_eq {s t : State} (h : t.mem = s.mem) : Keeps .mem s t := byteAt_congr h

theorem keeps_fb_of_eq {s t : State} (h : t.fb = s.fb) : Keeps .fb s t :=
  fun x y => by simp [pixel, h]

/-- An operation that changes the registers and the listed parts only: each part outside the list is
shown by the equality of the fields that hold it. -/
theorem KeepsAllBut.of_fields {ps : List Part} {s t : State} (hin : SameInputs s t)
    (hpc : .pc ∉ ps → t.pc = s.pc) (hidx : .idx ∉ ps → t.idx = s.idx)
    (hstack : .stack ∉ ps → t.sp = s.sp ∧ t.stack = s.stack)
    (hdt : .dt ∉ ps → t.dt = s.dt) (hst : .st ∉ ps → t.st = s.st)
    (hmem : .mem ∉ ps → t.mem = s.mem) (hfb : .fb ∉ ps → t.fb = s.fb)
    (hsovf : .sovf ∉ ps → t.anom.sovf = s.anom.sovf)
    (hsunf : .sunf ∉ ps → t.anom.sunf = s.anom.sunf)
    (hoob : .oob ∉ ps → t.anom.oob = s.anom.oob) : KeepsAllBut ps s t := by
  refine ⟨hin, fun p hp => ?_⟩
  cases p with
  | pc => exact hpc hp
  | idx => exact hidx hp
  | stack => exact keeps_stack_of_eq (hstack hp).1 (hstack hp).2
  | dt => exact hdt hp
  | st => exact hst hp
  | mem => exact keeps_mem_of_eq (hmem hp)
  | fb => exact keeps_fb_of_eq (hfb hp)
  | sovf => exact hsovf hp
  | sunf => exact hsunf hp
  | oob => exact hoob hp

/-! The frame of each shared operation. Its registers follow from the `_v` lemma of the operation
where it writes none. -/

theorem onlyRegs_writeReg (r : RegIx) (b : Byte) (s : State) : OnlyRegs [r] s (writeReg r b s) := by
  intro q hq
  rw [readReg_writeReg, if_neg (by simpa using hq)]

theorem keepsAllBut_writeReg (r : RegIx) (b : Byte) (s : State) :
    KeepsAllBut [] s (writeReg r b s) := KeepsAllBut.refl [] s

theorem onlyRegs_writeFlagThenResult (x : RegIx) (f r : Byte) (s : State) :
    OnlyRegs [x, vf] s (writeFlagThenResult x f r s) := by
  intro q hq
  obtain ⟨hx, hvf⟩ : q ≠ x ∧ q ≠ vf := by simpa using hq
  rw [readReg_writeFlagThenResult, if_neg hx, if_neg hvf]

theorem keepsAllBut_writeFlagThenResult (x : RegIx) (f r : Byte) (s : State) :
    KeepsAllBut [] s (writeFlagThenResult x f r s) := KeepsAllBut.refl [] s

theorem keepsAllBut_writePc (a : Nat) (s : State) : KeepsAllBut [.pc, .oob] s (writePc a s) := by
  apply KeepsAllBut.of_fields <;> simp [SameInputs]

/-- A `pc` value inside memory leaves the OOB bit alone, too (R24). -/
theorem keepsAllBut_writePc_of_lt {a : Nat} (h : a < 4096) (s : State) :
    KeepsAllBut [.pc] s (writePc a s) := by
  apply KeepsAllBut.of_fields <;> simp [SameInputs, h]

theorem keepsAllBut_writeIdx (a : Nat) (s : State) : KeepsAllBut [.idx] s (writeIdx a s) := by
  apply KeepsAllBut.of_fields <;> simp [SameInputs]

theorem keepsAllBut_memWrite (a : Nat) (b : Byte) (s : State) :
    KeepsAllBut [.mem, .oob] s (memWrite a b s) := by
  apply KeepsAllBut.of_fields <;> simp [SameInputs]

theorem keepsAllBut_storeRegs (base n : Nat) (s : State) :
    KeepsAllBut [.mem, .oob] s (storeRegs base n s) := by
  induction n with
  | zero => exact KeepsAllBut.refl _ s
  | succ n ih => exact ih.trans (keepsAllBut_memWrite _ _ _)

theorem keepsAllBut_loadRegs (base n : Nat) (s : State) :
    KeepsAllBut [.oob] s (loadRegs base n s) := by
  apply KeepsAllBut.of_fields <;> simp [SameInputs, loadRegs_anom]

theorem keepsAllBut_clearFrame (s : State) : KeepsAllBut [.fb] s (clearFrame s) := by
  apply KeepsAllBut.of_fields <;> simp [SameInputs]

theorem keepsAllBut_drawRows (base x0 y0 n : Nat) (s : State) :
    KeepsAllBut [.fb, .oob] s (drawRows base x0 y0 n s).2 := by
  apply KeepsAllBut.of_fields <;> simp [SameInputs, drawRows_anom]

/-- The part of the state that holds the sticky bit of an anomaly (R33). -/
def Anomaly.part : Anomaly → Part
  | .sovf => .sovf
  | .sunf => .sunf
  | .oob => .oob

theorem keepsAllBut_note (a : Anomaly) (c : Bool) (s : State) :
    KeepsAllBut [a.part] s (note a c s) := by
  cases a <;> apply KeepsAllBut.of_fields <;> simp [SameInputs, note, Anomaly.part]

theorem keepsAllBut_pushPc (s : State) : KeepsAllBut [.stack, .sovf] s (pushPc s) := by
  by_cases h : s.sp.toNat < 16
  · apply KeepsAllBut.of_fields <;> simp [SameInputs, pushPc_of_lt h]
  · rw [pushPc_of_full h]
    exact (keepsAllBut_note .sovf true s).mono (by simp [Anomaly.part])

theorem keepsAllBut_popPc (s : State) : KeepsAllBut [.pc, .stack, .sunf, .oob] s (popPc s) := by
  by_cases h : 0 < s.sp.toNat
  · apply KeepsAllBut.of_fields <;> simp [SameInputs, popPc_of_pos h]
  · rw [popPc_of_empty h]
    exact (keepsAllBut_note .sunf true s).mono (by simp [Anomaly.part])

theorem keepsAllBut_skipIf (c : Bool) (s : State) : KeepsAllBut [.pc, .oob] s (skipIf c s) := by
  cases c with
  | false => exact KeepsAllBut.refl _ s
  | true => exact keepsAllBut_writePc _ s

theorem keepsAllBut_holdPc (s : State) : KeepsAllBut [.pc] s (holdPc s) :=
  keepsAllBut_writePc_of_lt (Nat.mod_lt _ (by decide)) s

theorem onlyRegs_waitKey (x : RegIx) (s : State) : OnlyRegs [x] s (waitKey x s) := by
  by_cases h : s.key = 0x0000
  · rw [waitKey_of_none h]
    exact .of_v_eq (holdPc_v s)
  · obtain ⟨k, -, -, -, hw⟩ := waitKey_of_some (x := x) h
    rw [hw]
    exact onlyRegs_writeReg _ _ _

theorem keepsAllBut_waitKey (x : RegIx) (s : State) : KeepsAllBut [.pc] s (waitKey x s) := by
  by_cases h : s.key = 0x0000
  · rw [waitKey_of_none h]
    exact keepsAllBut_holdPc s
  · obtain ⟨k, -, -, -, hw⟩ := waitKey_of_some (x := x) h
    rw [hw]
    exact (keepsAllBut_writeReg _ _ _).mono (by simp)

/-- A bulk load writes the first `n` registers (R195). -/
theorem onlyRegs_loadRegs (base : Nat) {n : Nat} (hn : n ≤ 16) (s : State) :
    OnlyRegs ((List.range n).map (BitVec.ofNat 4)) s (loadRegs base n s) := by
  intro r hr
  have hge : ¬ r.toNat < n := fun hlt =>
    hr (List.mem_map.mpr ⟨r.toNat, List.mem_range.mpr hlt, by simp⟩)
  rw [readReg_loadRegs base s n hn, if_neg hge]

/-- DRW writes `VF` only (R211). -/
theorem onlyRegs_exec_drw {s t : State} {x y : RegIx} {n : BitVec 4}
    (h : exec (.drw x y n) s = .next t) : OnlyRegs [vf] s t := by
  cases h
  exact (OnlyRegs.of_v_eq (drawRows_v _ _ _ _ s)).trans (onlyRegs_writeReg vf _ _)

/-- No instruction writes a register that the table of R23 does not give it. -/
theorem onlyRegs_exec {i : Instr} {s t : State} (h : exec i s = .next t) :
    OnlyRegs (Instr.regsWritten i) s t := by
  cases i with
  | drw x y n => exact onlyRegs_exec_drw h
  | ldVxK x => cases h; exact onlyRegs_waitKey x s
  | ldVxMem x => cases h; exact onlyRegs_loadRegs _ (by simp; omega) s
  | ldImm | addImm | ldReg | orReg | andReg | xorReg | rnd | ldVxDT =>
    cases h; exact onlyRegs_writeReg _ _ s
  | addReg | subReg | shr | subnReg | shl => cases h; exact onlyRegs_writeFlagThenResult _ _ _ s
  | ret => cases h; exact .of_v_eq (popPc_v s)
  | call => cases h; exact .of_v_eq (pushPc_v s)
  | seImm | sneImm | seReg | sneReg | skp | sknp => cases h; exact .of_v_eq (skipIf_v _ s)
  | ldMemVx => cases h; exact .of_v_eq (storeRegs_v _ _ s)
  | sys | cls | jp | ldI | jpV0 | ldDTVx | ldSTVx | addIVx | ldFVx | ldBVx | nop8 | nopE | nopF =>
    cases h; exact .of_v_eq rfl

/-- No instruction writes a part of the state that R24 to R33 and R67 do not give it, nor an input. -/
theorem keepsAllBut_exec {i : Instr} {s t : State} (h : exec i s = .next t) :
    KeepsAllBut (Instr.partsWritten i) s t := by
  cases i with
  | cls => cases h; exact keepsAllBut_clearFrame s
  | ret => cases h; exact keepsAllBut_popPc s
  | jp nnn => cases h; exact keepsAllBut_writePc_of_lt nnn.isLt s
  | call nnn =>
    cases h
    exact ((keepsAllBut_pushPc s).mono (by simp [Instr.partsWritten])).trans
      ((keepsAllBut_writePc_of_lt nnn.isLt _).mono (by simp [Instr.partsWritten]))
  | seImm | sneImm | seReg | sneReg | skp | sknp => cases h; exact keepsAllBut_skipIf _ s
  | jpV0 => cases h; exact keepsAllBut_writePc _ s
  | drw =>
    cases h
    exact (keepsAllBut_drawRows _ _ _ _ s).trans ((keepsAllBut_writeReg _ _ _).mono (by simp))
  | ldVxK x => cases h; exact keepsAllBut_waitKey x s
  | ldI | addIVx | ldFVx => cases h; exact keepsAllBut_writeIdx _ s
  | ldBVx =>
    cases h
    exact ((keepsAllBut_memWrite _ _ s).trans (keepsAllBut_memWrite _ _ _)).trans
      (keepsAllBut_memWrite _ _ _)
  | ldMemVx => cases h; exact keepsAllBut_storeRegs _ _ s
  | ldVxMem => cases h; exact keepsAllBut_loadRegs _ _ s
  | ldDTVx | ldSTVx => cases h; apply KeepsAllBut.of_fields <;> simp [SameInputs, Instr.partsWritten]
  | ldImm | addImm | ldReg | orReg | andReg | xorReg | rnd | ldVxDT =>
    cases h; exact keepsAllBut_writeReg _ _ s
  | addReg | subReg | shr | subnReg | shl =>
    cases h; exact keepsAllBut_writeFlagThenResult _ _ _ s
  | sys | nop8 | nopE | nopF => cases h; exact KeepsAllBut.refl _ s

/-- Settles O46: the frame of every instruction, by its registers and its other parts. -/
theorem instructionsWriteOnlyWhatTheTablesSay :
    Obligations.InstructionsWriteOnlyWhatTheTablesSay :=
  fun _ _ _ h => ⟨onlyRegs_exec h, keepsAllBut_exec h⟩

end Sys2Proof.Machine

/-! PROOF. The invariant of R36 holds after reset, every load keeps it, and so does every step. -/

namespace Sys2Proof.Machine

/-- The invariant looks at `pc`, the stack and memory only. -/
theorem State.Inv.congr {s t : State} (h : s.Inv) (hpc : t.pc = s.pc) (hsp : t.sp = s.sp)
    (hstack : t.stack = s.stack) (hmem : t.mem = s.mem) : t.Inv := by
  unfold State.Inv
  rw [hpc, hsp, hstack, hmem]
  exact h

/-! Each shared operation keeps the invariant. -/

/-- What `writePc` stores is below 4096, whatever value it is given (R24). -/
theorem toNat_pc_writePc (a : Nat) (s : State) : (writePc a s).pc.toNat = a % 4096 := by
  simp; omega

theorem inv_writePc {s : State} (h : s.Inv) (a : Nat) : (writePc a s).Inv := by
  obtain ⟨-, hsp, hstack, hmem⟩ := h
  refine ⟨?_, hsp, hstack, hmem⟩
  rw [toNat_pc_writePc]
  exact Nat.mod_lt _ (by decide)

theorem inv_memWrite {s : State} (h : s.Inv) (a : Nat) (b : Byte) : (memWrite a b s).Inv := by
  obtain ⟨hpc, hsp, hstack, hmem⟩ := h
  exact ⟨hpc, hsp, hstack, Memory.wf_write hmem (Nat.mod_lt _ (by decide)) b⟩

theorem inv_storeRegs {s : State} (h : s.Inv) (base n : Nat) : (storeRegs base n s).Inv := by
  induction n with
  | zero => exact h
  | succ n ih => exact inv_memWrite ih _ _

/-- The entry that a push adds is the program counter, which the invariant bounds. -/
theorem inv_pushPc {s : State} (h : s.Inv) : (pushPc s).Inv := by
  obtain ⟨hpc, hsp, hstack, hmem⟩ := h
  by_cases hlt : s.sp.toNat < 16
  · obtain ⟨hsp', -, hentry⟩ := pushPc_of_lt hlt
    refine ⟨by simpa using hpc, ?_, fun k => ?_, by simpa using hmem⟩
    · rw [hsp', BitVec.toNat_add]
      simp; omega
    · have hk := hentry (BitVec.ofFin k)
      change (pushPc s).stack[k.val] = if k.val = s.sp.toNat then s.pc else s.stack[k.val] at hk
      rw [hk]
      split
      · exact hpc
      · exact hstack k
  · rw [pushPc_of_full hlt]
    exact State.Inv.congr ⟨hpc, hsp, hstack, hmem⟩ (by simp) (by simp) (by simp) (by simp)

theorem inv_popPc {s : State} (h : s.Inv) : (popPc s).Inv := by
  by_cases hpos : 0 < s.sp.toNat
  · rw [popPc_of_pos hpos]
    refine inv_writePc ?_ _
    obtain ⟨hpc, hsp, hstack, hmem⟩ := h
    refine ⟨hpc, ?_, hstack, hmem⟩
    have hone : (1 : BitVec 5).toNat = 1 := rfl
    change (s.sp - 1).toNat ≤ 16
    rw [BitVec.toNat_sub, hone]
    omega
  · rw [popPc_of_empty hpos]
    exact h.congr (by simp) (by simp) (by simp) (by simp)

theorem inv_skipIf {s : State} (h : s.Inv) (c : Bool) : (skipIf c s).Inv := by
  cases c with
  | false => exact h
  | true => exact inv_writePc h _

theorem inv_waitKey {s : State} (h : s.Inv) (x : RegIx) : (waitKey x s).Inv := by
  unfold waitKey
  split
  · exact inv_writePc h _
  · exact h.congr rfl rfl rfl rfl

/-! The instructions and the cycle. -/

theorem inv_exec {i : Instr} {s t : State} (hs : s.Inv) (h : exec i s = .next t) : t.Inv := by
  cases i with
  | ret => cases h; exact inv_popPc hs
  | jp | jpV0 => cases h; exact inv_writePc hs _
  | call => cases h; exact inv_writePc (inv_pushPc hs) _
  | seImm | sneImm | seReg | sneReg | skp | sknp => cases h; exact inv_skipIf hs _
  | ldVxK => cases h; exact inv_waitKey hs _
  | ldBVx => cases h; exact inv_memWrite (inv_memWrite (inv_memWrite hs _ _) _ _) _ _
  | ldMemVx => cases h; exact inv_storeRegs hs _ _
  | ldVxMem => cases h; exact hs.congr (by simp) (by simp) (by simp) (by simp)
  | drw => cases h; exact hs.congr (by simp) (by simp) (by simp) (by simp)
  | sys | cls | ldImm | addImm | ldReg | orReg | andReg | xorReg | addReg | subReg | shr | subnReg
  | shl | ldI | rnd | ldVxDT | ldDTVx | ldSTVx | addIVx | ldFVx | nop8 | nopE | nopF =>
    cases h; exact hs.congr rfl rfl rfl rfl

theorem inv_enter {s : State} (h : s.Inv) (inp : CycleInput) : (enter inp s).Inv := by
  obtain ⟨-, hsp, hstack, hmem⟩ := h
  refine ⟨?_, by simpa using hsp, by simpa using hstack, by simpa using hmem⟩
  simp; omega

theorem inv_cycle {inp : CycleInput} {s t : State} (hs : s.Inv) (h : cycle inp s = .next t) :
    t.Inv := by
  obtain ⟨u, hu, rfl⟩ := exec_of_cycle h
  exact (inv_exec (inv_enter hs inp) hu).congr rfl rfl rfl rfl

/-- A step is a cycle with the inputs that it takes from the host (R120). -/
theorem step_eq_cycle (s : State) : step s = cycle (nextInput s) (takeInput s) := rfl

/-- Settles O44: latch, fetch and advance keep the invariant, so does the instruction, and the decay
touches the timers only. -/
theorem stepKeepsInvariant : Obligations.StepKeepsInvariant := by
  intro s t hs h
  have htake : (takeInput s).Inv := hs.congr rfl rfl rfl rfl
  exact inv_cycle htake (step_eq_cycle s ▸ h)

/-! Reset and load. -/

/-- What a successful load is: at most 3584 bytes, copied to memory from 0x200 up (R284). -/
theorem of_loadProgram {bytes : List Byte} {s t : State} (h : loadProgram bytes s = .next t) :
    s.started = false ∧ bytes.length ≤ 3584 ∧
      t = { s with mem := Memory.writeAll s.mem 0x200 bytes } := by
  unfold loadProgram at h
  split at h
  · cases h
  · next hstarted =>
    split at h
    · cases h
    · next hlen =>
      cases h
      exact ⟨by simpa using hstarted, Nat.le_of_not_lt hlen, rfl⟩

/-- Settles O45: the image ends inside the 4096 cells, so the load keeps memory canonical. -/
theorem resetAndLoadMeetInvariant : Obligations.ResetAndLoadMeetInvariant := by
  refine ⟨by decide, fun bytes s t hs h => ?_⟩
  obtain ⟨-, hlen, rfl⟩ := of_loadProgram h
  obtain ⟨hpc, hsp, hstack, hmem⟩ := hs
  exact ⟨hpc, hsp, hstack, Memory.wf_writeAll hmem bytes (by omega)⟩

end Sys2Proof.Machine

/-! PROOF. `ANOM` has no effect on any other state (R33, decision D9). -/

namespace Sys2Proof.Machine

/-- Equal but for `ANOM`: one state is the other with some anomaly bits in place of its own. -/
theorem eqButAnom_iff {s t : State} : EqButAnom s t ↔ ∃ a : Anom, t = { s with anom := a } :=
  ⟨fun h => ⟨t.anom, h⟩, by rintro ⟨a, rfl⟩; rfl⟩

/-! Each operation, given two such states, leaves two such states. -/

theorem writeReg_eqButAnom {s t : State} (h : EqButAnom s t) {b c : Byte} (hbc : c = b)
    (r : RegIx) : EqButAnom (writeReg r b s) (writeReg r c t) := by
  obtain ⟨a, rfl⟩ := eqButAnom_iff.mp h
  subst hbc
  rfl

theorem memWrite_eqButAnom {s t : State} (h : EqButAnom s t) (a : Nat) (b : Byte) :
    EqButAnom (memWrite a b s) (memWrite a b t) := by
  obtain ⟨an, rfl⟩ := eqButAnom_iff.mp h
  rfl

theorem storeRegs_eqButAnom {s t : State} (h : EqButAnom s t) (base n : Nat) :
    EqButAnom (storeRegs base n s) (storeRegs base n t) := by
  induction n with
  | zero => exact h
  | succ n ih =>
    obtain ⟨a, rfl⟩ := eqButAnom_iff.mp h
    exact memWrite_eqButAnom ih _ _

theorem loadRegs_eqButAnom {s t : State} (h : EqButAnom s t) (base n : Nat) :
    EqButAnom (loadRegs base n s) (loadRegs base n t) := by
  induction n with
  | zero => exact h
  | succ n ih =>
    simp only [loadRegs]
    obtain ⟨a, ha⟩ := eqButAnom_iff.mp ih
    rw [ha]
    rfl

/-- The collision, too, is the same. -/
theorem drawRows_eqButAnom {s t : State} (h : EqButAnom s t) (base x0 y0 n : Nat) :
    (drawRows base x0 y0 n t).1 = (drawRows base x0 y0 n s).1 ∧
      EqButAnom (drawRows base x0 y0 n s).2 (drawRows base x0 y0 n t).2 := by
  induction n with
  | zero => exact ⟨rfl, h⟩
  | succ n ih =>
    obtain ⟨hhit, hstate⟩ := ih
    obtain ⟨a, ha⟩ := eqButAnom_iff.mp hstate
    simp only [drawRows, hhit, ha]
    exact ⟨rfl, rfl⟩

theorem pushPc_eqButAnom {s t : State} (h : EqButAnom s t) : EqButAnom (pushPc s) (pushPc t) := by
  obtain ⟨a, rfl⟩ := eqButAnom_iff.mp h
  unfold pushPc
  split <;> rfl

theorem popPc_eqButAnom {s t : State} (h : EqButAnom s t) : EqButAnom (popPc s) (popPc t) := by
  obtain ⟨a, rfl⟩ := eqButAnom_iff.mp h
  unfold popPc
  split <;> rfl

theorem writePc_eqButAnom {s t : State} (h : EqButAnom s t) (a : Nat) :
    EqButAnom (writePc a s) (writePc a t) := by
  obtain ⟨an, rfl⟩ := eqButAnom_iff.mp h
  rfl

theorem skipIf_eqButAnom {s t : State} (h : EqButAnom s t) (c : Bool) :
    EqButAnom (skipIf c s) (skipIf c t) := by
  obtain ⟨a, rfl⟩ := eqButAnom_iff.mp h
  cases c <;> rfl

theorem waitKey_eqButAnom {s t : State} (h : EqButAnom s t) (x : RegIx) :
    EqButAnom (waitKey x s) (waitKey x t) := by
  obtain ⟨a, rfl⟩ := eqButAnom_iff.mp h
  simp only [waitKey]
  split <;> rfl

/-! The instructions, the cycle and the step. -/

theorem exec_eqButAnom {s t : State} (h : EqButAnom s t) (i : Instr) :
    AnswersEqButAnom (exec i s) (exec i t) := by
  obtain ⟨a, rfl⟩ := eqButAnom_iff.mp h
  cases i with
  | ret => exact popPc_eqButAnom h
  | call => exact writePc_eqButAnom (pushPc_eqButAnom h) _
  | seImm | sneImm | seReg | sneReg | skp | sknp => exact skipIf_eqButAnom h _
  | ldVxK x => exact waitKey_eqButAnom h x
  | ldMemVx => exact storeRegs_eqButAnom h _ _
  | ldVxMem => exact loadRegs_eqButAnom h _ _
  | drw x y n =>
    obtain ⟨hhit, hstate⟩ := drawRows_eqButAnom h (indexAddr 0 s) (originX (readReg x s))
      (originY (readReg y s)) n.toNat
    exact writeReg_eqButAnom hstate (congrArg flag hhit) vf
  | sys | cls | jp | ldImm | addImm | ldReg | orReg | andReg | xorReg | addReg | subReg | shr
  | subnReg | shl | ldI | jpV0 | rnd | ldVxDT | ldDTVx | ldSTVx | addIVx | ldFVx | ldBVx | nop8
  | nopE | nopF => rfl

theorem enter_eqButAnom {s t : State} (h : EqButAnom s t) (inp : CycleInput) :
    EqButAnom (enter inp s) (enter inp t) := by
  obtain ⟨a, rfl⟩ := eqButAnom_iff.mp h
  rfl

theorem thenDecay_eqButAnom {r q : Result} (h : AnswersEqButAnom r q) :
    AnswersEqButAnom (thenDecay r) (thenDecay q) := by
  cases r <;> cases q
  case next.next s t =>
    have h : EqButAnom s t := h
    obtain ⟨a, rfl⟩ := eqButAnom_iff.mp h
    rfl
  all_goals exact h

theorem cycle_eqButAnom {s t : State} (h : EqButAnom s t) (inp : CycleInput) :
    AnswersEqButAnom (cycle inp s) (cycle inp t) := by
  have hword : wordAtPc t = wordAtPc s := by
    obtain ⟨a, rfl⟩ := eqButAnom_iff.mp h
    rfl
  rw [cycle_eq, cycle_eq, hword]
  exact thenDecay_eqButAnom (exec_eqButAnom (enter_eqButAnom h inp) _)

/-- Settles O49: two states equal but for `ANOM` take the same inputs, fetch the same word, and every
operation of the cycle keeps them equal but for `ANOM`. -/
theorem anomalyRegisterAffectsNothingElse : Obligations.AnomalyRegisterAffectsNothingElse := by
  intro s t h
  obtain ⟨a, rfl⟩ := eqButAnom_iff.mp h
  exact cycle_eqButAnom (s := takeInput s) (t := takeInput { s with anom := a }) rfl (nextInput s)

end Sys2Proof.Machine

/-! PROOF. The whole cycle: where it leaves `pc`, what a blocked one does, and the anomaly bits. -/

namespace Sys2Proof.Machine

/-! The state that step 4 begins in, and the decay after it. -/

/-- Latch, fetch and advance write `pc` and OOB only, beside the inputs (R121, R122, R125). -/
theorem keeps_enter {p : Part} (hp : p ∉ [Part.pc, .oob]) (inp : CycleInput) (s : State) :
    Keeps p s (enter inp s) := by
  cases p with
  | pc | oob => simp at hp
  | stack => exact keeps_stack_of_eq (enter_sp inp s) (enter_stack inp s)
  | mem => exact keeps_mem_of_eq (enter_mem inp s)
  | fb => exact keeps_fb_of_eq (enter_fb inp s)
  | idx | dt | st | sovf | sunf => simp [Keeps]

theorem readReg_enter (r : RegIx) (inp : CycleInput) (s : State) :
    readReg r (enter inp s) = readReg r s := readReg_congr (enter_v inp s) r

theorem keyDown_enter (b : Byte) (inp : CycleInput) (s : State) :
    keyDown b (enter inp s) = inp.key.getLsbD (b.toNat % 16) := by
  rw [keyDown, enter_key]

theorem toNat_pc_enter (inp : CycleInput) (s : State) :
    (enter inp s).pc.toNat = (s.pc.toNat + 2) % 4096 := by
  simp; omega

theorem keepsAllBut_decay (s : State) : KeepsAllBut [.dt, .st] s (decay s) := by
  apply KeepsAllBut.of_fields <;> simp [SameInputs]

/-! The blocked machine (R34). -/

/-- Stepping back undoes the advance (R233). -/
theorem pc_holdPc_enter {s : State} (hpc : s.pc.toNat < 4096) (inp : CycleInput) :
    (holdPc (enter inp s)).pc = s.pc := by
  rw [holdPc_spec]
  apply BitVec.eq_of_toNat_eq
  simp only [toNat_pc_enter, BitVec.toNat_ofNat]
  omega

theorem anom_holdPc (s : State) : (holdPc s).anom = s.anom := by rw [holdPc_spec]

/-- A blocked cycle is latch, fetch, advance, the step back, and the decay. -/
theorem cycle_of_blocked {inp : CycleInput} {s : State} (h : s.Blocked inp.key) :
    cycle inp s = .next (decay (holdPc (enter inp s))) := by
  obtain ⟨⟨x, hword⟩, hkey⟩ := h
  have hwait : waitKey x (enter inp s) = holdPc (enter inp s) := waitKey_of_none (by simpa using hkey)
  apply cycle_of_exec
  rw [hword, ← hwait]
  rfl

/-- Settles O35: the step back restores `pc`, and the rest is the frames of the parts of the cycle. -/
theorem blockedCycleOnlyDecaysTimers : Obligations.BlockedCycleOnlyDecaysTimers := by
  intro inp s hpc hblocked
  refine ⟨_, cycle_of_blocked hblocked, pc_holdPc_enter hpc inp, ?_, ?_, ?_, ?_, fun p hp => ?_⟩
  · simp [toNat_countDown]
  · simp [toNat_countDown]
  · simp [anom_holdPc]
  · exact .of_v_eq (by simp)
  · obtain ⟨henter, hhold, hdecay⟩ :
        p ∉ [Part.pc, .oob] ∧ p ∉ [Part.pc] ∧ p ∉ [Part.dt, .st] := by
      revert p
      decide
    exact ((keeps_enter henter inp s).trans ((keepsAllBut_holdPc _).2 p hhold)).trans
      ((keepsAllBut_decay _).2 p hdecay)

/-! `pc` after a cycle (R24). -/

/-- Every instruction completes (R250). -/
theorem exec_next (i : Instr) (s : State) : ∃ t, exec i s = .next t := by
  cases i <;> exact ⟨_, rfl⟩

/-- An instruction that does not write `pc` is in the row "plain advance" of the table. -/
theorem pcAfter_of_notMem {i : Instr} (h : Part.pc ∉ Instr.partsWritten i) (key : Word) (a : Nat)
    (s : State) : pcAfter i key a s = (a + 2) % 4096 := by
  cases i with
  | ret | jp | call | seImm | sneImm | seReg | sneReg | jpV0 | skp | sknp | ldVxK =>
    simp [Instr.partsWritten] at h
  | _ => rfl

theorem toNat_pc_skipIf {s : State} (c : Bool) :
    (skipIf c s).pc.toNat = if c then (s.pc.toNat + 2) % 4096 else s.pc.toNat := by
  cases c with
  | false => rfl
  | true => exact toNat_pc_writePc _ s

/-- A skip in a cycle lands 4 after the fetched word, or 2 (R148). -/
theorem toNat_pc_skipIf_enter {c : Bool} {P : Prop} [Decidable P] (hc : c = true ↔ P)
    (inp : CycleInput) (s : State) :
    (skipIf c (enter inp s)).pc.toNat =
      if P then (s.pc.toNat + 4) % 4096 else (s.pc.toNat + 2) % 4096 := by
  rw [toNat_pc_skipIf, toNat_pc_enter, Nat.mod_add_mod]
  simp only [hc]

/-- A pop leaves the popped entry in `pc`, or `pc` as it was (decision D8). -/
theorem toNat_pc_popPc {s : State} (h : s.Inv) :
    (popPc s).pc.toNat = if 0 < s.sp.toNat then
      (stackEntry (BitVec.ofNat 4 (s.sp.toNat - 1)) s).toNat else s.pc.toNat := by
  obtain ⟨-, -, hstack, -⟩ := h
  split
  · next hpos =>
    have hone : (1 : BitVec 5).toNat = 1 := rfl
    have htop : (s.sp - 1).setWidth 4 = BitVec.ofNat 4 (s.sp.toNat - 1) := by
      apply BitVec.eq_of_toNat_eq
      rw [BitVec.toNat_setWidth, BitVec.toNat_sub, hone, BitVec.toNat_ofNat]
      omega
    rw [popPc_of_pos hpos, toNat_pc_writePc, htop]
    exact Nat.mod_eq_of_lt (hstack (BitVec.ofNat 4 (s.sp.toNat - 1)).toFin)
  · next hempty => rw [popPc_of_empty hempty, note_pc]

theorem toNat_pc_waitKey_enter {s : State} (hpc : s.pc.toNat < 4096) (x : RegIx)
    (inp : CycleInput) :
    (waitKey x (enter inp s)).pc.toNat =
      if inp.key = 0x0000 then s.pc.toNat else (s.pc.toNat + 2) % 4096 := by
  split
  · next h => rw [waitKey_of_none (by simpa using h), pc_holdPc_enter hpc]
  · next h =>
    obtain ⟨k, -, -, -, hw⟩ := waitKey_of_some (x := x) (s := enter inp s) (by simpa using h)
    rw [hw, writeReg_pc, toNat_pc_enter]

/-- The table of R24 for one instruction, executed in the state that the cycle entered. -/
theorem toNat_pc_exec_enter {i : Instr} {inp : CycleInput} {s u : State} (hs : s.Inv)
    (h : exec i (enter inp s) = .next u) : u.pc.toNat = pcAfter i inp.key s.pc.toNat s := by
  by_cases hwrites : Part.pc ∈ Instr.partsWritten i
  · cases i with
    | ret =>
      cases h
      rw [toNat_pc_popPc (inv_enter hs inp), toNat_pc_enter]
      simp [pcAfter, stackEntry]
    | jp nnn | call nnn =>
      cases h
      rw [toNat_pc_writePc]
      exact Nat.mod_eq_of_lt nnn.isLt
    | jpV0 nnn =>
      cases h
      rw [toNat_pc_writePc, indexedTarget, readReg_enter]
      rfl
    | seImm | sneImm | seReg | sneReg =>
      cases h; exact toNat_pc_skipIf_enter (by simp [readReg_enter]) inp s
    | skp | sknp =>
      cases h; exact toNat_pc_skipIf_enter (by simp [readReg_enter, keyDown_enter]) inp s
    | ldVxK x => cases h; exact toNat_pc_waitKey_enter hs.1 x inp
    | _ => simp [Instr.partsWritten] at hwrites
  · have hpc : u.pc = (enter inp s).pc := (keepsAllBut_exec h).2 .pc hwrites
    rw [hpc, toNat_pc_enter, pcAfter_of_notMem hwrites]

/-- Settles O40: the instruction settles `pc`, and the decay leaves it alone. -/
theorem pcAfterEveryCycle : Obligations.PcAfterEveryCycle := by
  intro inp s hs
  obtain ⟨u, hu⟩ := exec_next (decodeWord (wordAtPc s)) (enter inp s)
  refine ⟨decay u, cycle_of_exec hu, ?_⟩
  rw [decay_pc]
  exact toNat_pc_exec_enter hs hu

/-! The anomaly bits (R33, R251). -/

/-- SOVF after an instruction: as before, or set by CALL on a full stack (R142). -/
theorem sovf_exec {i : Instr} {s t : State} (h : exec i s = .next t) :
    t.anom.sovf = true ↔ s.anom.sovf = true ∨ (16 ≤ s.sp.toNat ∧ ∃ nnn, i = .call nnn) := by
  by_cases hwrites : Part.sovf ∈ Instr.partsWritten i
  · cases i with
    | call nnn =>
      cases h
      by_cases hlt : s.sp.toNat < 16
      · simp [(pushPc_of_lt hlt).2.1, hlt]
      · simp [pushPc_of_full hlt, note, Nat.le_of_not_lt hlt]
    | _ => simp [Instr.partsWritten] at hwrites
  · have hkept : t.anom.sovf = s.anom.sovf := (keepsAllBut_exec h).2 .sovf hwrites
    have hcall : ¬∃ nnn, i = .call nnn := by
      rintro ⟨nnn, rfl⟩
      exact hwrites (by simp [Instr.partsWritten])
    simp [hkept, hcall]

/-- SUNF after an instruction: as before, or set by RET on the empty stack (R140). -/
theorem sunf_exec {i : Instr} {s t : State} (h : exec i s = .next t) :
    t.anom.sunf = true ↔ s.anom.sunf = true ∨ (s.sp.toNat = 0 ∧ ∃ pad, i = .ret pad) := by
  by_cases hwrites : Part.sunf ∈ Instr.partsWritten i
  · cases i with
    | ret pad =>
      cases h
      by_cases hpos : 0 < s.sp.toNat
      · simp [popPc_of_pos hpos, Nat.ne_of_gt hpos]
      · simp [popPc_of_empty hpos, note, Nat.eq_zero_of_not_pos hpos]
    | _ => simp [Instr.partsWritten] at hwrites
  · have hkept : t.anom.sunf = s.anom.sunf := (keepsAllBut_exec h).2 .sunf hwrites
    have hret : ¬∃ pad, i = .ret pad := by
      rintro ⟨pad, rfl⟩
      exact hwrites (by simp [Instr.partsWritten])
    simp [hkept, hret]

theorem oob_popPc {s : State} (h : s.anom.oob = true) : (popPc s).anom.oob = true := by
  by_cases hpos : 0 < s.sp.toNat
  · simp [popPc_of_pos hpos, h]
  · rw [popPc_of_empty hpos]
    exact (note_sticky .sunf true s).2.2 h

theorem oob_skipIf {s : State} (c : Bool) (h : s.anom.oob = true) :
    (skipIf c s).anom.oob = true := by
  cases c <;> simp [skipIf, h]

/-- No instruction clears OOB. -/
theorem oob_exec {i : Instr} {s t : State} (h : exec i s = .next t) (hs : s.anom.oob = true) :
    t.anom.oob = true := by
  by_cases hwrites : Part.oob ∈ Instr.partsWritten i
  · cases i with
    | ret => cases h; exact oob_popPc hs
    | seImm | sneImm | seReg | sneReg | skp | sknp => cases h; exact oob_skipIf _ hs
    | jpV0 => cases h; simp [hs]
    | drw => cases h; simp [drawRows_anom, hs]
    | ldBVx => cases h; simp [hs]
    | ldMemVx => cases h; simp [storeRegs_anom, hs]
    | ldVxMem => cases h; simp [loadRegs_anom, hs]
    | _ => simp [Instr.partsWritten] at hwrites
  · have hkept : t.anom.oob = s.anom.oob := (keepsAllBut_exec h).2 .oob hwrites
    rw [hkept, hs]

/-- Settles O48: the instruction sets SOVF and SUNF exactly as the rules of CALL and RET say, no part
of the cycle clears a bit, and the rest of the cycle sets OOB only. -/
theorem anomalyBitsAreStickyWithTheirCauses : Obligations.AnomalyBitsAreStickyWithTheirCauses := by
  intro inp s t h
  obtain ⟨u, hu, rfl⟩ := exec_of_cycle h
  have hsovf := sovf_exec hu
  have hsunf := sunf_exec hu
  simp only [enter_anom, enter_sp] at hsovf hsunf
  have hoob (hset : s.anom.oob = true) : u.anom.oob = true := oob_exec hu (by simp [hset])
  refine ⟨fun hset => hsovf.mpr (.inl hset), fun hset => hsunf.mpr (.inl hset), hoob,
    fun hclear hsp => ?_, fun hclear => ?_⟩
  · have hfull : 16 ≤ s.sp.toNat ↔ s.sp.toNat = 16 := by omega
    simpa [hclear, hfull] using hsovf
  · simpa [hclear] using hsunf

end Sys2Proof.Machine

/-! PROOF. What Reset leaves (R37, R280). -/

namespace Sys2Proof.Machine

/-- Reset leaves every byte of memory at its unlisted content. -/
theorem byteAt_hostReset (a : Nat) (s : State) :
    byteAt a (hostReset s) = Memory.unlisted (a % 4096) := rfl

theorem unlisted_of_lt {a : Nat} (h : a < 0x050) : Memory.unlisted a = 0x00 :=
  if_neg (Nat.not_le_of_lt h)

/-- Above the 80 font bytes memory is zero (R75). -/
theorem unlisted_of_ge {a : Nat} (h : 0x0A0 ≤ a) : Memory.unlisted a = 0x00 := by
  have hlen : font.length = 80 := rfl
  unfold Memory.unlisted
  rw [List.getD_eq_default _ _ (by rw [hlen]; show 80 ≤ a - 0x050; omega), ite_self]

/-- Settles O50: the font is compared glyph by glyph, every other item is the value that Reset puts. -/
theorem resetLeavesTheStatedValues : Obligations.ResetLeavesTheStatedValues := by
  intro s
  refine ⟨fun r => ?_, rfl, rfl, fun k => ?_, rfl, rfl, rfl, fun a ha => ?_, ?_,
    fun a hlow hhigh => ?_, fun px py => ?_, rfl, ?_, rfl⟩
  · simp [readReg, hostReset, State.reset]
  · simp [stackEntry, hostReset, State.reset]
  · rw [byteAt_hostReset, unlisted_of_lt (by omega)]
  · simp only [byteAt_hostReset]
    decide
  · rw [byteAt_hostReset, unlisted_of_ge (by omega)]
  · simp [pixel, Frame.cell, hostReset, State.reset]
  · change anomBits State.reset = 0#3
    decide

end Sys2Proof.Machine

/-! PROOF. Memory accesses, and the fetch after a store (R63, R64, R72). -/

namespace Sys2Proof.Machine

/-! The two halves of an opcode (R65). -/

@[simp] theorem hiByte_opcodeOf (hi lo : Byte) : hiByte (opcodeOf hi lo) = hi := by
  apply BitVec.eq_of_toNat_eq
  have := lo.isLt
  rw [toNat_hiByte, toNat_opcodeOf]; omega

@[simp] theorem loByte_opcodeOf (hi lo : Byte) : loByte (opcodeOf hi lo) = lo := by
  apply BitVec.eq_of_toNat_eq
  have := lo.isLt
  rw [toNat_loByte, toNat_opcodeOf]; omega

theorem hiByte_fetch (s : State) : hiByte (fetch s).1 = byteAt s.pc.toNat s := by
  rw [(fetch_spec s).1, wordAtPc, hiByte_opcodeOf]

theorem loByte_fetch (s : State) : loByte (fetch s).1 = byteAt (s.pc.toNat + 1) s := by
  rw [(fetch_spec s).1, wordAtPc, loByte_opcodeOf]

/-- Settles O43: the fetch reads the bytes at `pc` and `pc + 1`, and the store leaves `pc` alone, so
each half is one byte read after one byte write. -/
theorem storedByteIsFetched : Obligations.StoredByteIsFetched := by
  intro a v s
  constructor
  · rw [hiByte_fetch, hiByte_fetch, memWrite_pc, byteAt_memWrite]
  · rw [loByte_fetch, loByte_fetch, memWrite_pc, byteAt_memWrite]

/-! One access. A read answers the byte and records the address; a write changes that byte, too. -/

theorem keepsAllBut_memRead (a : Nat) (s : State) : KeepsAllBut [.oob] s (memRead a s).2 :=
  keepsAllBut_note .oob (decide (4096 ≤ a)) s

/-- Settles O42: the byte that a read answers and the OOB bit of both accesses are as defined, the
bytes after a write are those of `byteAt_memWrite`, and the rest is the frame of each access. -/
theorem memoryAccessIsModulo4096 : Obligations.MemoryAccessIsModulo4096 := by
  intro a b v s
  have hreadRegs : OnlyRegs [] s (memRead a s).2 := .of_v_eq (noteOob_v a s)
  have hwriteRegs : OnlyRegs [] s (memWrite a v s) := .of_v_eq (memWrite_v a v s)
  exact ⟨rfl, rfl, hreadRegs, keepsAllBut_memRead a s,
    byteAt_memWrite a v b s, rfl, hwriteRegs, keepsAllBut_memWrite a v s⟩

end Sys2Proof.Machine

/-! PROOF. The decoder and the encoder (R91 to R102). -/

namespace Sys2Proof

/-! A word put together again from its fields (R92). -/

theorem wordXYN_fields {w : Word} {f n : BitVec 4} (hf : famOf w = f) (hn : nOf w = n) :
    wordXYN f (xOf w) (yOf w) n = w := by
  subst hf hn
  apply BitVec.eq_of_toNat_eq
  rw [toNat_wordXYN, toNat_famOf, toNat_xOf, toNat_yOf, toNat_nOf]; omega

theorem wordXKK_fields {w : Word} {f : BitVec 4} {kk : Byte} (hf : famOf w = f)
    (hk : kkOf w = kk) : wordXKK f (xOf w) kk = w := by
  subst hf hk
  apply BitVec.eq_of_toNat_eq
  rw [toNat_wordXKK, toNat_famOf, toNat_xOf, toNat_kkOf]; omega

theorem wordNNN_fields {w : Word} {f : BitVec 4} (hf : famOf w = f) :
    wordNNN f (nnnOf w) = w := by
  subst hf
  apply BitVec.eq_of_toNat_eq
  rw [toNat_wordNNN, toNat_famOf, toNat_nnnOf]; omega

theorem wordFam0_fields {w : Word} {n : BitVec 4} (hf : famOf w = 0x0) (hn : nOf w = n) :
    wordFam0 (midOf w) n = w := by
  subst hn
  have hlt : w.toNat / 4096 = 0 := by rw [← toNat_famOf, hf]; rfl
  apply BitVec.eq_of_toNat_eq
  rw [toNat_wordFam0, toNat_midOf, toNat_nOf]; omega

/-! The checks of the four no-op rows, as the fields that the secondary dispatch tests (R99). -/

theorem toNat_nnnOf_mod_16 (w : Word) : (nnnOf w).toNat % 16 = (nOf w).toNat := by
  rw [toNat_nnnOf, toNat_nOf]; omega

theorem toNat_nnnOf_mod_256 (w : Word) : (nnnOf w).toNat % 256 = (kkOf w).toNat := by
  rw [toNat_nnnOf, toNat_kkOf]; omega

theorem sysBits_nnnOf (w : Word) :
    sysBits (nnnOf w) = true ↔ (nOf w).toNat ≠ 0x0 ∧ (nOf w).toNat ≠ 0xE := by
  simp [sysBits, toNat_nnnOf_mod_16]

theorem nop8Bits_nnnOf (w : Word) :
    nop8Bits (nnnOf w) = true ↔ 8 ≤ (nOf w).toNat ∧ (nOf w).toNat ≠ 0xE := by
  simp [nop8Bits, toNat_nnnOf_mod_16]

theorem nopEBits_nnnOf (w : Word) :
    nopEBits (nnnOf w) = true ↔ (nOf w).toNat ≠ 0x1 ∧ (nOf w).toNat ≠ 0xE := by
  simp [nopEBits, toNat_nnnOf_mod_16]

theorem nopFBits_nnnOf (w : Word) :
    nopFBits (nnnOf w) = true ↔ (kkOf w).toNat ∉ mappedF := by
  simp [nopFBits, toNat_nnnOf_mod_256]

/-! The four families with a secondary dispatch (R93), and their no-ops (R94 to R97): in the last
case of each dispatch (`h_3` or `h_10` of the split) the selector is none of the mapped values. -/

theorem decodeWord_fam0 {w : Word} (h : famOf w = 0x0) : decodeWord w = decodeFam0 w := by
  simp [decodeWord, h]

theorem decodeWord_fam8 {w : Word} (h : famOf w = 0x8) : decodeWord w = decodeFam8 w := by
  simp [decodeWord, h]

theorem decodeWord_famE {w : Word} (h : famOf w = 0xE) : decodeWord w = decodeFamE w := by
  simp [decodeWord, h]

theorem decodeWord_famF {w : Word} (h : famOf w = 0xF) : decodeWord w = decodeFamF w := by
  simp [decodeWord, h]

theorem decodeFam0_of_sysBits {w : Word} (h : sysBits (nnnOf w) = true) :
    decodeFam0 w = .sys (nnnOf w) := by
  rw [sysBits_nnnOf] at h
  unfold decodeFam0
  split
  case h_3 => rfl
  all_goals next hsel => simp [hsel] at h

theorem decodeFam8_of_nop8Bits {w : Word} (h : nop8Bits (nnnOf w) = true) :
    decodeFam8 w = .nop8 (nnnOf w) := by
  rw [nop8Bits_nnnOf] at h
  unfold decodeFam8
  split
  case h_10 => rfl
  all_goals next hsel => simp [hsel] at h

theorem decodeFamE_of_nopEBits {w : Word} (h : nopEBits (nnnOf w) = true) :
    decodeFamE w = .nopE (nnnOf w) := by
  rw [nopEBits_nnnOf] at h
  unfold decodeFamE
  split
  case h_3 => rfl
  all_goals next hsel => simp [hsel] at h

theorem decodeFamF_of_nopFBits {w : Word} (h : nopFBits (nnnOf w) = true) :
    decodeFamF w = .nopF (nnnOf w) := by
  rw [nopFBits_nnnOf] at h
  unfold decodeFamF
  split
  case h_10 => rfl
  all_goals next hsel => simp [hsel, mappedF] at h

/-- Settles O4: a word of family 0 is decoded by its low nibble. -/
theorem familyZeroDispatch : Obligations.FamilyZeroDispatch := by
  intro w hf
  rw [decodeWord_fam0 hf]
  refine ⟨fun h => ?_, fun h => ?_, fun h0 hE => ?_⟩
  · simp [decodeFam0, h]
  · simp [decodeFam0, h]
  · exact decodeFam0_of_sysBits ((sysBits_nnnOf w).2
      ⟨fun h => h0 (BitVec.eq_of_toNat_eq h), fun h => hE (BitVec.eq_of_toNat_eq h)⟩)

/-- Settles O5: the nine mapped low nibbles by evaluation, the other seven are the no-op's. -/
theorem familyEightDispatch : Obligations.FamilyEightDispatch := by
  intro w hf
  have hnop : nOf w ∈ [0x8#4, 0x9, 0xA, 0xB, 0xC, 0xD, 0xF] → nop8Bits (nnnOf w) = true := by
    rw [nop8Bits_nnnOf]
    generalize nOf w = n
    decide +revert
  rw [decodeWord_fam8 hf]
  refine ⟨?_, ?_, ?_, ?_, ?_, ?_, ?_, ?_, ?_, fun h => decodeFam8_of_nop8Bits (hnop h)⟩ <;>
  · intro h
    simp [decodeFam8, h]

/-- Settles O6: a word of family E is decoded by its low nibble. -/
theorem familyEDispatch : Obligations.FamilyEDispatch := by
  intro w hf
  rw [decodeWord_famE hf]
  refine ⟨fun h => ?_, fun h => ?_, fun hE h1 => ?_⟩
  · simp [decodeFamE, h]
  · simp [decodeFamE, h]
  · exact decodeFamE_of_nopEBits ((nopEBits_nnnOf w).2
      ⟨fun h => h1 (BitVec.eq_of_toNat_eq h), fun h => hE (BitVec.eq_of_toNat_eq h)⟩)

/-- Settles O7: the nine mapped low bytes by evaluation, the other values are the no-op's. -/
theorem familyFDispatch : Obligations.FamilyFDispatch := by
  intro w hf
  have hnop : kkOf w ∉ [0x07#8, 0x0A, 0x15, 0x18, 0x1E, 0x29, 0x33, 0x55, 0x65] →
      nopFBits (nnnOf w) = true := by
    simp [nopFBits_nnnOf, mappedF, BitVec.toNat_eq]
  rw [decodeWord_famF hf]
  refine ⟨?_, ?_, ?_, ?_, ?_, ?_, ?_, ?_, ?_, fun h => decodeFamF_of_nopFBits (hnop h)⟩ <;>
  · intro h
    simp [decodeFamF, h]

/-- Settles O3, by evaluation of the decoder on the ten words. -/
theorem writtenOutWordsDecode : Obligations.WrittenOutWordsDecode := by
  unfold Obligations.WrittenOutWordsDecode
  decide

/-! Decode after encode. -/

/-- The decoder on the two bytes of a word, in memory order (R65). -/
theorem decode_bytes (w : Word) : decode [hiByte w, loByte w] = .ok (decodeWord w, []) := by
  rw [decode, opcodeOf_bytes]

/-- The decoder reads back the word of a no-op row when its bits select no other row of the family,
and of every other row for all its operands, whose fields are those of `Laws/Decode.lean`. -/
theorem decodeWord_encode {i : Instr} (h : i.wellFormed = true) : decodeWord (encode i) = i := by
  cases i with
  | sys bits => simpa [encode, decodeWord_fam0] using
      decodeFam0_of_sysBits (w := wordNNN 0x0 bits) (by rw [nnnOf_wordNNN]; exact h)
  | nop8 bits => simpa [encode, decodeWord_fam8] using
      decodeFam8_of_nop8Bits (w := wordNNN 0x8 bits) (by rw [nnnOf_wordNNN]; exact h)
  | nopE bits => simpa [encode, decodeWord_famE] using
      decodeFamE_of_nopEBits (w := wordNNN 0xE bits) (by rw [nnnOf_wordNNN]; exact h)
  | nopF bits => simpa [encode, decodeWord_famF] using
      decodeFamF_of_nopFBits (w := wordNNN 0xF bits) (by rw [nnnOf_wordNNN]; exact h)
  | cls | ret => simp [encode, decodeWord_fam0, decodeFam0]
  | ldReg | orReg | andReg | xorReg | addReg | subReg | shr | subnReg | shl =>
    simp [encode, decodeWord_fam8, decodeFam8]
  | skp | sknp => simp [encode, decodeWord_famE, decodeFamE]
  | ldVxDT | ldVxK | ldDTVx | ldSTVx | addIVx | ldFVx | ldBVx | ldMemVx | ldVxMem =>
    simp [encode, decodeWord_famF, decodeFamF]
  | jp | call | seImm | sneImm | seReg | ldImm | addImm | sneReg | ldI | jpV0 | rnd | drw =>
    simp [encode, decodeWord]

/-- Settles O1: at word level row by row, at byte level because the two bytes are the word again. -/
theorem decodeOfEncodeIsIdentity : Obligations.DecodeOfEncodeIsIdentity := by
  intro i h
  have hword : decodeWord (encode i) = i := decodeWord_encode h
  exact ⟨hword, by rw [encodeBytes, decode_bytes, hword]⟩

/-! Encode after decode: in a mapped case the selector is the row's fixed value, in the last case
it passes the check of the no-op row. -/

theorem wellFormed_and_encode_decodeFam0 {w : Word} (hf : famOf w = 0x0) :
    (decodeFam0 w).wellFormed = true ∧ encode (decodeFam0 w) = w := by
  unfold decodeFam0
  split
  case h_3 h0 hE => exact ⟨(sysBits_nnnOf w).2 ⟨h0, hE⟩, wordNNN_fields hf⟩
  all_goals next hn => exact ⟨rfl, wordFam0_fields hf (BitVec.eq_of_toNat_eq hn)⟩

theorem wellFormed_and_encode_decodeFam8 {w : Word} (hf : famOf w = 0x8) :
    (decodeFam8 w).wellFormed = true ∧ encode (decodeFam8 w) = w := by
  unfold decodeFam8
  split
  case h_10 h0 h1 h2 h3 h4 h5 h6 h7 hE =>
    have hge : 8 ≤ (nOf w).toNat := by
      by_contra hlt
      interval_cases (nOf w).toNat <;> contradiction
    exact ⟨(nop8Bits_nnnOf w).2 ⟨hge, hE⟩, wordNNN_fields hf⟩
  all_goals next hn => exact ⟨rfl, wordXYN_fields hf (BitVec.eq_of_toNat_eq hn)⟩

theorem wellFormed_and_encode_decodeFamE {w : Word} (hf : famOf w = 0xE) :
    (decodeFamE w).wellFormed = true ∧ encode (decodeFamE w) = w := by
  unfold decodeFamE
  split
  case h_3 hE h1 => exact ⟨(nopEBits_nnnOf w).2 ⟨h1, hE⟩, wordNNN_fields hf⟩
  all_goals next hn => exact ⟨rfl, wordXYN_fields hf (BitVec.eq_of_toNat_eq hn)⟩

theorem wellFormed_and_encode_decodeFamF {w : Word} (hf : famOf w = 0xF) :
    (decodeFamF w).wellFormed = true ∧ encode (decodeFamF w) = w := by
  unfold decodeFamF
  split
  case h_10 h07 h0A h15 h18 h1E h29 h33 h55 h65 =>
    have hnot : (kkOf w).toNat ∉ mappedF := by
      simp only [mappedF, List.mem_cons, List.not_mem_nil, or_false, not_or]
      exact ⟨h07, h0A, h15, h18, h1E, h29, h33, h55, h65⟩
    exact ⟨(nopFBits_nnnOf w).2 hnot, wordNNN_fields hf⟩
  all_goals next hk => exact ⟨rfl, wordXKK_fields hf (BitVec.eq_of_toNat_eq hk)⟩

/-- Settles O2: the word is put together again from the fields that its format has. -/
theorem encodeOfDecodeIsIdentity : Obligations.EncodeOfDecodeIsIdentity := by
  intro w
  unfold decodeWord
  split
  case h_1 hf => exact wellFormed_and_encode_decodeFam0 (BitVec.eq_of_toNat_eq hf)
  case h_9 hf => exact wellFormed_and_encode_decodeFam8 (BitVec.eq_of_toNat_eq hf)
  case h_15 hf => exact wellFormed_and_encode_decodeFamE (BitVec.eq_of_toNat_eq hf)
  case h_16 =>
    have hlt : (famOf w).toNat < 16 := (famOf w).isLt
    have hf : (famOf w).toNat = 15 := by
      by_contra hne
      interval_cases (famOf w).toNat <;> contradiction
    exact wellFormed_and_encode_decodeFamF (BitVec.eq_of_toNat_eq hf)
  case h_2 hf | h_3 hf | h_11 hf | h_12 hf =>
    exact ⟨rfl, wordNNN_fields (BitVec.eq_of_toNat_eq hf)⟩
  case h_4 hf | h_5 hf | h_7 hf | h_8 hf | h_13 hf =>
    exact ⟨rfl, wordXKK_fields (BitVec.eq_of_toNat_eq hf) rfl⟩
  case h_6 hf | h_10 hf | h_14 hf =>
    exact ⟨rfl, wordXYN_fields (BitVec.eq_of_toNat_eq hf) rfl⟩

end Sys2Proof

/-! PROOF. The frame of a whole cycle, its timers, and the cycles of the no-ops and of the jump to
itself (R120 to R130). -/

namespace Sys2Proof.Machine

/-! What a cycle leaves, from what its instruction writes. -/

/-- The inputs of the cycle stand latched after it, the host's queue is as before, and the load
window is closed (R125, R129; logs 1, 2 and 7). -/
theorem inputs_of_cycle {inp : CycleInput} {s t : State} (h : cycle inp s = .next t) :
    t.key = inp.key ∧ t.rnd = inp.rnd ∧ t.inputs = s.inputs ∧ t.inputNo = s.inputNo ∧
      t.started = true := by
  obtain ⟨u, hu, rfl⟩ := exec_of_cycle h
  obtain ⟨hkey, hrnd, hinputs, hno, hstarted⟩ := (keepsAllBut_exec hu).1
  simp [hkey, hrnd, hinputs, hno, hstarted]

theorem onlyRegs_cycle {inp : CycleInput} {s t : State} (h : cycle inp s = .next t) :
    OnlyRegs (Instr.regsWritten (decodeWord (wordAtPc s))) s t := by
  obtain ⟨u, hu, rfl⟩ := exec_of_cycle h
  exact ((OnlyRegs.of_v_eq (enter_v inp s)).trans (onlyRegs_exec hu)).trans (.of_v_eq (decay_v u))

/-- A part that neither the instruction nor the rest of the cycle writes. -/
theorem keeps_cycle {p : Part} {inp : CycleInput} {s t : State} (h : cycle inp s = .next t)
    (henter : p ∉ [Part.pc, .oob]) (hdecay : p ∉ [Part.dt, .st])
    (hexec : p ∉ Instr.partsWritten (decodeWord (wordAtPc s))) : Keeps p s t := by
  obtain ⟨u, hu, rfl⟩ := exec_of_cycle h
  exact ((keeps_enter henter inp s).trans ((keepsAllBut_exec hu).2 p hexec)).trans
    ((keepsAllBut_decay u).2 p hdecay)

/-- `pc` after an instruction that does not write it is the advanced one (R122). -/
theorem toNat_pc_cycle_of_notMem {inp : CycleInput} {s t : State} (h : cycle inp s = .next t)
    (hpc : Part.pc ∉ Instr.partsWritten (decodeWord (wordAtPc s))) :
    t.pc.toNat = (s.pc.toNat + 2) % 4096 := by
  obtain ⟨u, hu, rfl⟩ := exec_of_cycle h
  have hkept : u.pc = (enter inp s).pc := (keepsAllBut_exec hu).2 .pc hpc
  rw [decay_pc, hkept, toNat_pc_enter]

/-- OOB after an instruction that does not write it is what the advance left (R24, R122). -/
theorem oob_cycle_of_notMem {inp : CycleInput} {s t : State} (h : cycle inp s = .next t)
    (hoob : Part.oob ∉ Instr.partsWritten (decodeWord (wordAtPc s))) :
    t.anom.oob = (s.anom.oob || decide (4096 ≤ s.pc.toNat + 2)) := by
  obtain ⟨u, hu, rfl⟩ := exec_of_cycle h
  have hkept : u.anom.oob = (enter inp s).anom.oob := (keepsAllBut_exec hu).2 .oob hoob
  rw [decay_anom, hkept, enter_anom]

/-! The timers (R126). -/

theorem toNat_dt_cycle_of_notMem {inp : CycleInput} {s t : State} (h : cycle inp s = .next t)
    (hdt : Part.dt ∉ Instr.partsWritten (decodeWord (wordAtPc s))) :
    t.dt.toNat = s.dt.toNat - 1 := by
  obtain ⟨u, hu, rfl⟩ := exec_of_cycle h
  have hkept : u.dt = (enter inp s).dt := (keepsAllBut_exec hu).2 .dt hdt
  rw [decay_dt, toNat_countDown, hkept, enter_dt]

theorem toNat_st_cycle_of_notMem {inp : CycleInput} {s t : State} (h : cycle inp s = .next t)
    (hst : Part.st ∉ Instr.partsWritten (decodeWord (wordAtPc s))) :
    t.st.toNat = s.st.toNat - 1 := by
  obtain ⟨u, hu, rfl⟩ := exec_of_cycle h
  have hkept : u.st = (enter inp s).st := (keepsAllBut_exec hu).2 .st hst
  rw [decay_st, toNat_countDown, hkept, enter_st]

/-- Consequence (a) of R126: a load of `DT` is counted down in its own cycle. -/
theorem toNat_dt_cycle_ldDTVx {inp : CycleInput} {s t : State} {x : RegIx}
    (h : cycle inp s = .next t) (hword : decodeWord (wordAtPc s) = .ldDTVx x) :
    t.dt.toNat = (readReg x s).toNat - 1 := by
  obtain ⟨u, hu, rfl⟩ := exec_of_cycle h
  rw [hword] at hu
  cases hu
  rw [decay_dt, toNat_countDown, readReg_enter]

theorem toNat_st_cycle_ldSTVx {inp : CycleInput} {s t : State} {x : RegIx}
    (h : cycle inp s = .next t) (hword : decodeWord (wordAtPc s) = .ldSTVx x) :
    t.st.toNat = (readReg x s).toNat - 1 := by
  obtain ⟨u, hu, rfl⟩ := exec_of_cycle h
  rw [hword] at hu
  cases hu
  rw [decay_st, toNat_countDown, readReg_enter]

/-- Only LD DT, Vx writes `DT` (R28). -/
theorem dt_mem_partsWritten {i : Instr} :
    Part.dt ∈ Instr.partsWritten i ↔ ∃ x, i = .ldDTVx x := by
  cases i <;> simp [Instr.partsWritten]

/-- Only LD ST, Vx writes `ST` (R29). -/
theorem st_mem_partsWritten {i : Instr} :
    Part.st ∈ Instr.partsWritten i ↔ ∃ x, i = .ldSTVx x := by
  cases i <;> simp [Instr.partsWritten]

/-- Settles O39: the decay is of what the instruction left in each timer, and one instruction writes
it. -/
theorem timersDecayOncePerCycle : Obligations.TimersDecayOncePerCycle := by
  intro inp s t h
  refine ⟨fun hne => toNat_dt_cycle_of_notMem h ?_, fun x => toNat_dt_cycle_ldDTVx h,
    fun hne => toNat_st_cycle_of_notMem h ?_, fun x => toNat_st_cycle_ldSTVx h⟩
  · rw [dt_mem_partsWritten]
    exact not_exists.mpr hne
  · rw [st_mem_partsWritten]
    exact not_exists.mpr hne

/-! The no-ops (R127) and the jump to itself (R130) write `pc` at most. -/

/-- The cycle of an instruction that writes `pc` at most: only the decay and the advance show. -/
theorem frame_cycle_of_writes_pc_only {inp : CycleInput} {s t : State} (h : cycle inp s = .next t)
    (hregs : Instr.regsWritten (decodeWord (wordAtPc s)) = [])
    (hparts : Instr.partsWritten (decodeWord (wordAtPc s)) ⊆ [.pc]) :
    t.dt.toNat = s.dt.toNat - 1 ∧ t.st.toNat = s.st.toNat - 1 ∧
      t.anom.oob = (s.anom.oob || decide (4096 ≤ s.pc.toNat + 2)) ∧
      OnlyRegs [] s t ∧ ∀ p ∈ [Part.idx, .stack, .mem, .fb, .sovf, .sunf], Keeps p s t := by
  have hkept {p : Part} (hp : p ∉ [Part.pc]) :
      p ∉ Instr.partsWritten (decodeWord (wordAtPc s)) := fun hmem => hp (hparts hmem)
  refine ⟨toNat_dt_cycle_of_notMem h (hkept (by decide)),
    toNat_st_cycle_of_notMem h (hkept (by decide)), oob_cycle_of_notMem h (hkept (by decide)),
    hregs ▸ onlyRegs_cycle h, fun p hp => ?_⟩
  obtain ⟨henter, hdecay, hpc⟩ :
      p ∉ [Part.pc, .oob] ∧ p ∉ [Part.dt, .st] ∧ p ∉ [Part.pc] := by
    revert p
    decide
  exact keeps_cycle h henter hdecay (hkept hpc)

/-- An unmapped word decodes to the no-op of its family (R94 to R97, R99). -/
theorem decodeWord_of_isNoOpWord {w : Word} (h : IsNoOpWord w) :
    decodeWord w = .sys (nnnOf w) ∨ decodeWord w = .nop8 (nnnOf w) ∨
      decodeWord w = .nopE (nnnOf w) ∨ decodeWord w = .nopF (nnnOf w) := by
  obtain ⟨hf, hn⟩ | ⟨hf, hn⟩ | ⟨hf, hn⟩ | ⟨hf, hk⟩ := h
  · obtain ⟨-, -, hsys⟩ := familyZeroDispatch w hf
    obtain ⟨h0, hE⟩ : nOf w ≠ 0x0 ∧ nOf w ≠ 0xE := by simpa using hn
    exact .inl (hsys h0 hE)
  · obtain ⟨-, -, -, -, -, -, -, -, -, hnop⟩ := familyEightDispatch w hf
    exact .inr (.inl (hnop hn))
  · obtain ⟨-, -, hnop⟩ := familyEDispatch w hf
    obtain ⟨h1, hE⟩ : nOf w ≠ 0x1 ∧ nOf w ≠ 0xE := by simpa using hn
    exact .inr (.inr (.inl (hnop hE h1)))
  · obtain ⟨-, -, -, -, -, -, -, -, -, hnop⟩ := familyFDispatch w hf
    exact .inr (.inr (.inr (hnop hk)))

theorem writes_nothing_of_isNoOpWord {w : Word} (h : IsNoOpWord w) :
    Instr.regsWritten (decodeWord w) = [] ∧ Instr.partsWritten (decodeWord w) = [] := by
  obtain hi | hi | hi | hi := decodeWord_of_isNoOpWord h <;> rw [hi] <;> exact ⟨rfl, rfl⟩

/-- Every cycle completes (R120, R250). -/
theorem cycle_next (inp : CycleInput) (s : State) : ∃ t, cycle inp s = .next t := by
  obtain ⟨u, hu⟩ := exec_next (decodeWord (wordAtPc s)) (enter inp s)
  exact ⟨decay u, cycle_of_exec hu⟩

/-- Settles O8: a no-op's handler answers its state, so its cycle is latch, advance and decay. -/
theorem noOpsOnlyAdvanceAndDecay : Obligations.NoOpsOnlyAdvanceAndDecay := by
  refine ⟨fun _ _ => ⟨rfl, rfl, rfl, rfl⟩, fun inp s hword => ?_⟩
  obtain ⟨hregs, hparts⟩ := writes_nothing_of_isNoOpWord hword
  obtain ⟨t, h⟩ := cycle_next inp s
  have hpc : t.pc.toNat = (s.pc.toNat + 2) % 4096 := toNat_pc_cycle_of_notMem h (by simp [hparts])
  obtain ⟨hdt, hst, hoob, honly, hkeeps⟩ :=
    frame_cycle_of_writes_pc_only h hregs (by simp [hparts])
  obtain ⟨hkey, hrnd, hinputs, hno, -⟩ := inputs_of_cycle h
  exact ⟨t, h, hpc, hdt, hst, hoob, hkey, hrnd, hinputs, hno, honly, hkeeps⟩

/-- The fetch looks at `pc` and memory only (R121). -/
theorem wordAtPc_congr {s t : State} (hpc : t.pc = s.pc) (hmem : Keeps .mem s t) :
    wordAtPc t = wordAtPc s := by
  rw [wordAtPc, hpc, hmem, hmem, wordAtPc]

/-- A cycle that fetches JP nnn leaves `nnn` in `pc` (R141). -/
theorem toNat_pc_cycle_jp {inp : CycleInput} {s t : State} {nnn : BitVec 12}
    (h : cycle inp s = .next t) (hword : decodeWord (wordAtPc s) = .jp nnn) :
    t.pc.toNat = nnn.toNat := by
  obtain ⟨u, hu, rfl⟩ := exec_of_cycle h
  rw [hword] at hu
  cases hu
  rw [decay_pc, toNat_pc_writePc]
  exact Nat.mod_eq_of_lt nnn.isLt

/-- Settles O41: the jump puts the fetch address back in `pc`, and memory is kept, so the same word
stands there; the rest is the frame of an instruction that writes `pc` at most. -/
theorem selfJumpIsTheEndOfAProgram : Obligations.SelfJumpIsTheEndOfAProgram := by
  intro inp nnn s hself hjump
  have hword : decodeWord (wordAtPc s) = .jp nnn := by
    rw [hjump]
    exact decodeWord_encode (i := .jp nnn) rfl
  obtain ⟨t, h⟩ := cycle_next inp s
  have hpc : t.pc = s.pc :=
    BitVec.eq_of_toNat_eq ((toNat_pc_cycle_jp h hword).trans hself.symm)
  obtain ⟨hdt, hst, hoob, honly, hkeeps⟩ :=
    frame_cycle_of_writes_pc_only h (by rw [hword]; rfl) (by simp [hword, Instr.partsWritten])
  exact ⟨t, h, hpc, wordAtPc_congr hpc (hkeeps .mem (by simp)), hdt, hst, hoob, honly, hkeeps⟩

end Sys2Proof.Machine

/-! PROOF. A step is a cycle with the inputs that it takes from the host's queue (R120; log 1). -/

namespace Sys2Proof.Machine

/-- Taking the inputs of a step touches the host's side of the interface only (log 1). -/
theorem keeps_takeInput (p : Part) (s : State) : Keeps p s (takeInput s) := by
  cases p with
  | stack => exact keeps_stack_of_eq (takeInput_sp s) (takeInput_stack s)
  | mem => exact keeps_mem_of_eq (takeInput_mem s)
  | fb => exact keeps_fb_of_eq (takeInput_fb s)
  | _ => rfl

/-- A step executes the decoded word at `pc` with the inputs latched and `pc` advanced, and then
decays the timers. -/
theorem step_eq_thenDecay (s : State) :
    step s = thenDecay (exec (decodeWord (wordAtPc s)) (enter (nextInput s) (takeInput s))) := by
  rw [step_eq_cycle, cycle_eq, wordAtPc_takeInput]

/-- Settles O36: the state in which the instruction is executed is the entered state of the step's
cycle, and its fields are those of `enter` after `takeInput`. -/
theorem stepRunsDecodedInstruction : Obligations.StepRunsDecodedInstruction := by
  intro s i hdecode
  have hword : decodeWord (wordAtPc s) = i := by simpa [decode, wordAtPc] using hdecode
  have hstep := step_eq_thenDecay s
  rw [hword] at hstep
  refine ⟨enter (nextInput s) (takeInput s), enter_key _ _, enter_rnd _ _, enter_started _ _,
    by simp, by simp, toNat_pc_enter _ (takeInput s), by simp, .of_v_eq (by simp), by simp,
    by simp, fun p hp => ?_, fun t ht => ?_, fun r hr => ?_, fun r hr => ?_⟩
  · have henter : p ∉ [Part.pc, .oob] := by
      revert p
      decide
    exact (keeps_takeInput p s).trans (keeps_enter henter _ _)
  · rw [hstep, ht]; rfl
  · rw [hstep, hr]; rfl
  · rw [hstep, hr]; rfl

/-- Settles O37: the step's cycle runs with the head of the queue and leaves the tail. -/
theorem stepTakesTheOldestInput : Obligations.StepTakesTheOldestInput := by
  intro inp rest s t hqueue h
  rw [step_eq_cycle] at h
  obtain ⟨hkey, hrnd, hinputs, -, hstarted⟩ := inputs_of_cycle h
  have hnext : nextInput s = inp := by simp [nextInput, hqueue]
  have htail : (takeInput s).inputs = rest := by simp [hqueue]
  rw [hnext] at hkey hrnd
  exact ⟨hkey, hrnd, hinputs.trans htail, hstarted⟩

end Sys2Proof.Machine

/-! PROOF. The latched inputs have no effect but on the instructions that read them (R129). -/

namespace Sys2Proof.Machine

/-- A state with another keypad latch and another sampled byte in place of its own. -/
def withInputs (inp : CycleInput) (s : State) : State := { s with key := inp.key, rnd := inp.rnd }

/-! Each operation leaves the same state but for these two fields. -/

theorem storeRegs_withInputs (inp : CycleInput) (base n : Nat) (s : State) :
    storeRegs base n (withInputs inp s) = withInputs inp (storeRegs base n s) := by
  induction n with
  | zero => rfl
  | succ n ih => rw [storeRegs, ih]; rfl

theorem loadRegs_withInputs (inp : CycleInput) (base n : Nat) (s : State) :
    loadRegs base n (withInputs inp s) = withInputs inp (loadRegs base n s) := by
  induction n with
  | zero => rfl
  | succ n ih => rw [loadRegs, ih]; rfl

/-- The collision, too, is the same. -/
theorem drawRows_withInputs (inp : CycleInput) (base x0 y0 n : Nat) (s : State) :
    drawRows base x0 y0 n (withInputs inp s) =
      ((drawRows base x0 y0 n s).1, withInputs inp (drawRows base x0 y0 n s).2) := by
  induction n with
  | zero => rfl
  | succ n ih => rw [drawRows, ih]; rfl

theorem pushPc_withInputs (inp : CycleInput) (s : State) :
    pushPc (withInputs inp s) = withInputs inp (pushPc s) := by
  unfold pushPc
  rw [apply_ite (withInputs inp)]
  rfl

theorem popPc_withInputs (inp : CycleInput) (s : State) :
    popPc (withInputs inp s) = withInputs inp (popPc s) := by
  unfold popPc
  rw [apply_ite (withInputs inp)]
  rfl

theorem skipIf_withInputs {c d : Bool} (h : c = d) (inp : CycleInput) (s : State) :
    skipIf c (withInputs inp s) = withInputs inp (skipIf d s) := by
  subst h
  cases c <;> rfl

/-! The two readers of the keypad latch do the same with the same latch. -/

theorem keyDown_withInputs {inp : CycleInput} {s : State} (h : inp.key = s.key) (b : Byte) :
    keyDown b (withInputs inp s) = keyDown b s := by
  simp [keyDown, withInputs, h]

theorem waitKey_withInputs {inp : CycleInput} {s : State} (h : inp.key = s.key) (x : RegIx) :
    waitKey x (withInputs inp s) = withInputs inp (waitKey x s) := by
  have hkey : (withInputs inp s).key = s.key := h
  unfold waitKey
  rw [hkey]
  split <;> rfl

/-- An instruction given other inputs, the same where it reads them, answers the same state but for
the inputs. -/
theorem exec_withInputs {i : Instr} {inp : CycleInput} {s t : State}
    (hkey : Instr.readsKey i = true → inp.key = s.key)
    (hrnd : Instr.readsRnd i = true → inp.rnd = s.rnd) (h : exec i s = .next t) :
    exec i (withInputs inp s) = .next (withInputs inp t) := by
  cases i with
  | ret => cases h; exact congrArg _ (popPc_withInputs inp s)
  | call nnn =>
    cases h
    exact congrArg _ (congrArg (writePc (immAddr nnn)) (pushPc_withInputs inp s))
  | seImm | sneImm | seReg | sneReg => cases h; exact congrArg _ (skipIf_withInputs rfl inp s)
  | skp =>
    cases h
    exact congrArg _ (skipIf_withInputs (keyDown_withInputs (hkey rfl) _) inp s)
  | sknp =>
    cases h
    exact congrArg _ (skipIf_withInputs (congrArg not (keyDown_withInputs (hkey rfl) _)) inp s)
  | ldVxK x => cases h; exact congrArg _ (waitKey_withInputs (hkey rfl) x)
  | rnd x kk =>
    cases h
    exact congrArg _ (congrArg (fun b => writeReg x (b &&& kk) (withInputs inp s)) (hrnd rfl))
  | ldMemVx => cases h; exact congrArg _ (storeRegs_withInputs inp _ _ s)
  | ldVxMem => cases h; exact congrArg _ (loadRegs_withInputs inp _ _ s)
  | drw =>
    cases h
    exact congrArg _ (congrArg (fun p : Bool × State => writeReg vf (flag p.1) p.2)
      (drawRows_withInputs inp _ _ _ _ s))
  | sys | cls | jp | ldImm | addImm | ldReg | orReg | andReg | xorReg | addReg | subReg | shr
  | subnReg | shl | ldI | jpV0 | ldVxDT | ldDTVx | ldSTVx | addIVx | ldFVx | ldBVx | nop8 | nopE
  | nopF => cases h; rfl

/-- Settles O47: change one input and keep the other, which the instruction has left as it was. -/
theorem inputsAreReadOnlyByTheirInstructions :
    Obligations.InputsAreReadOnlyByTheirInstructions := by
  intro i s t h
  obtain ⟨hkey, hrnd, -⟩ := (keepsAllBut_exec h).1
  refine ⟨fun k hreads => ?_, fun b hreads => ?_⟩
  · have hsame : withInputs ⟨k, s.rnd⟩ t = { t with key := k } := by rw [withInputs, ← hrnd]
    rw [← hsame]
    exact exec_withInputs (inp := ⟨k, s.rnd⟩) (by simp [hreads]) (fun _ => rfl) h
  · have hsame : withInputs ⟨s.key, b⟩ t = { t with rnd := b } := by rw [withInputs, ← hkey]
    rw [← hsame]
    exact exec_withInputs (inp := ⟨s.key, b⟩) (fun _ => rfl) (by simp [hreads]) h

end Sys2Proof.Machine

/-! PROOF. Control transfer: the jumps, the call and the return, and the four skips (R140 to R148). -/

namespace Sys2Proof.Machine

/-! The jumps (R141, R147). -/

/-- Every 12-bit target is a `pc` value inside memory (R24, R101). -/
theorem toNat_pc_writePc_immAddr (nnn : BitVec 12) (s : State) :
    (writePc (immAddr nnn) s).pc.toNat = nnn.toNat :=
  (toNat_pc_writePc _ s).trans (Nat.mod_eq_of_lt nnn.isLt)

/-- Settles O10: the target is written as it stands, and the frame is that of JP nnn. -/
theorem jumpIsAbsolute : Obligations.JumpIsAbsolute := by
  intro nnn s
  have h : exec (.jp nnn) s = .next (writePc (immAddr nnn) s) := rfl
  exact ⟨decodeWord_encode (i := .jp nnn) rfl, _, h, toNat_pc_writePc_immAddr nnn s,
    onlyRegs_exec h, keepsAllBut_exec h⟩

/-- Settles O15: the unreduced sum is written to `pc`, which wraps it and records it (R24). -/
theorem indexedJumpAddsV0 : Obligations.IndexedJumpAddsV0 := by
  intro nnn s
  have h : exec (.jpV0 nnn) s = .next (writePc (indexedTarget nnn s) s) := rfl
  exact ⟨decodeWord_encode (i := .jpV0 nnn) rfl, _, h, toNat_pc_writePc _ s,
    congrArg Anom.oob (writePc_anom _ s), onlyRegs_exec h, keepsAllBut_exec h⟩

/-! The skips (R143 to R146). -/

/-- The skip of R148, for a condition that the model computes as a Boolean. -/
theorem skipEffect_skipIf {c : Bool} {P : Prop} (hc : c = true ↔ P) (s : State) :
    SkipEffect P s (skipIf c s) := by
  refine ⟨fun hP => ?_, fun hP => ?_, .of_v_eq (skipIf_v c s), keepsAllBut_skipIf c s⟩
  · obtain rfl : c = true := hc.mpr hP
    exact ⟨toNat_pc_writePc _ s, congrArg Anom.oob (writePc_anom _ s)⟩
  · obtain rfl : c = false := Bool.eq_false_of_not_eq_true (fun htrue => hP (hc.mp htrue))
    exact ⟨rfl, rfl⟩

/-- Settles O13: both conditions are a comparison with the immediate. -/
theorem skipOnImmediate : Obligations.SkipOnImmediate := fun x kk s =>
  ⟨decodeWord_encode (i := .seImm x kk) rfl, decodeWord_encode (i := .sneImm x kk) rfl,
    ⟨_, rfl, skipEffect_skipIf beq_iff_eq s⟩, ⟨_, rfl, skipEffect_skipIf bne_iff_ne s⟩⟩

/-- Settles O14: both conditions are a comparison of two registers, and `exec` drops the ignored
nibble. -/
theorem skipOnRegisters : Obligations.SkipOnRegisters := fun x y pad s =>
  ⟨decodeWord_encode (i := .seReg x y pad) rfl, decodeWord_encode (i := .sneReg x y pad) rfl,
    ⟨_, rfl, skipEffect_skipIf beq_iff_eq s⟩, ⟨_, rfl, skipEffect_skipIf bne_iff_ne s⟩⟩

/-! The call (R142). -/

/-- The stack pointer counts up to 16 without wrapping (R27). -/
theorem toNat_sp_add_one {s : State} (h : s.sp.toNat < 16) :
    (s.sp + 1).toNat = s.sp.toNat + 1 := by bv_omega

/-- With room on the stack a push records nothing. -/
theorem keepsAllBut_pushPc_of_lt {s : State} (h : s.sp.toNat < 16) :
    KeepsAllBut [.stack] s (pushPc s) := by
  obtain ⟨-, hanom, -⟩ := pushPc_of_lt h
  apply KeepsAllBut.of_fields <;> simp [SameInputs, hanom]

/-- The jump of CALL leaves the stack as the push left it. -/
theorem stackEntry_writePc (k : BitVec 4) (a : Nat) (s : State) :
    stackEntry k (writePc a s) = stackEntry k s := rfl

/-- Settles O11: the jump is that of JP nnn, after a push that either adds `pc` on top of the stack
or only records the overflow. -/
theorem callPushesOrRecordsOverflow : Obligations.CallPushesOrRecordsOverflow := by
  intro nnn s
  have h : exec (.call nnn) s = .next (writePc (immAddr nnn) (pushPc s)) := rfl
  have hjump := keepsAllBut_writePc_of_lt nnn.isLt (pushPc s)
  refine ⟨decodeWord_encode (i := .call nnn) rfl, fun hroom => ?_, fun hfull => ?_⟩
  · obtain ⟨hsp, -, hentry⟩ := pushPc_of_lt hroom
    refine ⟨_, h, toNat_pc_writePc_immAddr nnn _, ?_, hentry, onlyRegs_exec h, ?_⟩
    · rw [writePc_sp, hsp, toNat_sp_add_one hroom]
    · exact ((keepsAllBut_pushPc_of_lt hroom).mono (by simp)).trans (hjump.mono (by simp))
  · have hpush : pushPc s = note .sovf true s := pushPc_of_full (by omega)
    have hkeeps : KeepsAllBut [.sovf] s (pushPc s) := hpush ▸ keepsAllBut_note .sovf true s
    refine ⟨_, h, toNat_pc_writePc_immAddr nnn _, ?_, onlyRegs_exec h, ?_⟩
    · simp [hpush, note]
    · exact (hkeeps.mono (by simp)).trans (hjump.mono (by simp))

/-! The return (R140). -/

/-- A `pc` value inside memory is stored as it is, and nothing is recorded (R24). -/
theorem writePc_of_lt {a : Nat} (h : a < 4096) (s : State) :
    writePc a s = { s with pc := BitVec.ofNat 16 a } := by
  simp [writePc, noteOob, Nat.mod_eq_of_lt h, Nat.not_le_of_lt h]

/-- The entry that a pop answers: the one just below `SP`. -/
def topEntry (s : State) : Word := stackEntry (BitVec.ofNat 4 (s.sp.toNat - 1)) s

theorem toNat_sp_sub_one {s : State} (h : 0 < s.sp.toNat) :
    (s.sp - 1).toNat = s.sp.toNat - 1 := by bv_omega

/-- With an entry in use a pop writes `pc` and `SP` only, if the entry is a `pc` value inside memory,
as the invariant says of every entry (R26). -/
theorem popPc_of_pos_of_lt {s : State} (hpos : 0 < s.sp.toNat) (hlt : (topEntry s).toNat < 4096) :
    popPc s = { s with pc := topEntry s, sp := s.sp - 1 } := by
  have htop : (s.sp - 1).setWidth 4 = BitVec.ofNat 4 (s.sp.toNat - 1) := by
    rw [← toNat_sp_sub_one hpos]
    exact BitVec.eq_of_toNat_eq (by simp)
  rw [popPc_of_pos hpos, htop, ← topEntry, writePc_of_lt hlt]
  simp

theorem keepsAllBut_popPc_of_pos_of_lt {s : State} (hpos : 0 < s.sp.toNat)
    (hlt : (topEntry s).toNat < 4096) : KeepsAllBut [.pc, .stack] s (popPc s) := by
  rw [popPc_of_pos_of_lt hpos hlt]
  apply KeepsAllBut.of_fields <;> simp [SameInputs]

theorem State.Inv.toNat_stackEntry_lt {s : State} (h : s.Inv) (k : BitVec 4) :
    (stackEntry k s).toNat < 4096 := by
  obtain ⟨-, -, hstack, -⟩ := h
  exact hstack k.toFin

/-- Settles O9: the pop with an entry in use, which the invariant bounds, and the pop of the empty
stack, which only records the underflow. -/
theorem returnPopsOrRecordsUnderflow : Obligations.ReturnPopsOrRecordsUnderflow := by
  intro pad s hs
  have h : exec (.ret pad) s = .next (popPc s) := rfl
  refine ⟨decodeWord_encode (i := .ret pad) rfl, fun hpos => ?_, fun hempty => ?_⟩
  · have hlt : (topEntry s).toNat < 4096 := hs.toNat_stackEntry_lt _
    have hpop := popPc_of_pos_of_lt hpos hlt
    refine ⟨_, h, ?_, ?_, fun k => ?_, onlyRegs_exec h, keepsAllBut_popPc_of_pos_of_lt hpos hlt⟩
    · rw [hpop, toNat_sp_sub_one hpos]
    · rw [hpop, topEntry]
    · simp [stackEntry]
  · have hpop : popPc s = note .sunf true s := popPc_of_empty (by omega)
    refine ⟨_, h, ?_, onlyRegs_exec h, ?_⟩
    · simp [hpop, note]
    · exact hpop ▸ keepsAllBut_note .sunf true s

/-- Settles O12: the entry on top is the `pc` that the call pushed, and one pop undoes one push. -/
theorem callThenReturnRestoresPcAndSp : Obligations.CallThenReturnRestoresPcAndSp := by
  intro nnn pad s t u hroom hpc hcall hsp hstack
  cases hcall
  obtain ⟨hpush, -, hentry⟩ := pushPc_of_lt hroom
  have husp : u.sp = s.sp + 1 := by rw [hsp, writePc_sp, hpush]
  have hcount : u.sp.toNat = s.sp.toNat + 1 := by rw [husp, toNat_sp_add_one hroom]
  have htop : topEntry u = s.pc := by
    rw [topEntry, hcount, hstack, stackEntry_writePc, hentry]
    exact if_pos (by simp; omega)
  have hpop := popPc_of_pos_of_lt (s := u) (by omega) (htop ▸ hpc)
  refine ⟨popPc u, rfl, ?_, ?_⟩
  · rw [hpop, htop]
  · rw [hpop, husp]
    exact BitVec.add_sub_cancel s.sp 1

end Sys2Proof.Machine

/-! PROOF. Loads, arithmetic, logic, shifts and the random instruction (R160 to R174). -/

namespace Sys2Proof.Machine

/-! Reading back what these instructions write. -/

@[simp] theorem readReg_writeReg_self (x : RegIx) (b : Byte) (s : State) :
    readReg x (writeReg x b s) = b := by
  rw [readReg_writeReg, if_pos rfl]

/-- The result survives, also in `VF` (R173). -/
@[simp] theorem readReg_writeFlagThenResult_self (x : RegIx) (f r : Byte) (s : State) :
    readReg x (writeFlagThenResult x f r s) = r := by
  rw [readReg_writeFlagThenResult, if_pos rfl]

/-- The flag survives where `VF` is not the destination (R173). -/
theorem readReg_vf_writeFlagThenResult {x : RegIx} (hx : x ≠ vf) (f r : Byte) (s : State) :
    readReg vf (writeFlagThenResult x f r s) = f := by
  rw [readReg_writeFlagThenResult, if_neg hx.symm, if_pos rfl]

/-! The flag values as numbers (R172). -/

theorem toNat_flag (c : Bool) : (flag c).toNat = c.toNat := by
  cases c <;> rfl

theorem toNat_flag_decide (p : Prop) [Decidable p] :
    (flag (decide p)).toNat = if p then 1 else 0 := by
  by_cases h : p <;> simp [flag, h]

theorem toNat_carryFlag (a b : Byte) :
    (carryFlag a b).toNat = if 255 < a.toNat + b.toNat then 1 else 0 := toNat_flag_decide _

theorem toNat_noBorrowFlag (a b : Byte) :
    (noBorrowFlag a b).toNat = if b.toNat ≤ a.toNat then 1 else 0 := toNat_flag_decide _

/-- A right shift moves out the lowest bit (R168). -/
theorem toNat_shrFlag (a : Byte) : (shrFlag a).toNat = a.toNat % 2 := by
  rw [shrFlag, toNat_flag, BitVec.getLsbD, Nat.toNat_testBit, pow_zero, Nat.div_one]

/-- A left shift moves out the highest bit (R170). -/
theorem toNat_shlFlag (a : Byte) : (shlFlag a).toNat = a.toNat / 128 := by
  have hbit : (shlFlag a).toNat = a.toNat / 128 % 2 := by
    rw [shlFlag, toNat_flag, BitVec.getLsbD, Nat.toNat_testBit]
  omega

/-! The results as numbers. -/

/-- The difference that a byte subtraction leaves, as an integer modulo 256 (R167, R169). -/
theorem toNat_byte_sub (a b : Byte) : ((a - b).toNat : Int) = (a.toNat - b.toNat : Int) % 256 := by
  rw [BitVec.toNat_sub]
  omega

theorem toNat_byte_ushiftRight_one (a : Byte) : (a >>> 1).toNat = a.toNat / 2 :=
  Nat.shiftRight_one a.toNat

theorem toNat_byte_shiftLeft_one (a : Byte) : (a <<< 1).toNat = a.toNat * 2 % 256 := by
  rw [BitVec.toNat_shiftLeft, Nat.shiftLeft_eq]

/-! The instructions that write `Vx` and no flag (R160 to R165). -/

/-- Settles O16: both loads are one register write. -/
theorem loadRegisterValue : Obligations.LoadRegisterValue := by
  intro x y kk s
  have himm : exec (.ldImm x kk) s = .next (writeReg x kk s) := rfl
  have hreg : exec (.ldReg x y) s = .next (writeReg x (readReg y s) s) := rfl
  exact ⟨decodeWord_encode (i := .ldImm x kk) rfl, decodeWord_encode (i := .ldReg x y) rfl,
    ⟨_, himm, readReg_writeReg_self x kk s, onlyRegs_exec himm, keepsAllBut_exec himm⟩,
    ⟨_, hreg, readReg_writeReg_self x _ s, onlyRegs_exec hreg, keepsAllBut_exec hreg⟩⟩

/-- Settles O17: the sum of two bytes wraps, and `Vx` is all that is written. -/
theorem addImmediateWrapsWithoutFlag : Obligations.AddImmediateWrapsWithoutFlag := by
  intro x kk s
  have h : exec (.addImm x kk) s = .next (writeReg x (readReg x s + kk) s) := rfl
  refine ⟨decodeWord_encode (i := .addImm x kk) rfl, _, h, ?_, onlyRegs_exec h, keepsAllBut_exec h⟩
  rw [readReg_writeReg_self, BitVec.toNat_add]

/-- Settles O18: each result is read back bit by bit, and `VF` is outside the frame. -/
theorem logicIsBitwiseWithoutFlag : Obligations.LogicIsBitwiseWithoutFlag := by
  intro x y s
  have hor : exec (.orReg x y) s = .next (writeReg x (readReg x s ||| readReg y s) s) := rfl
  have hand : exec (.andReg x y) s = .next (writeReg x (readReg x s &&& readReg y s) s) := rfl
  have hxor : exec (.xorReg x y) s = .next (writeReg x (readReg x s ^^^ readReg y s) s) := rfl
  refine ⟨decodeWord_encode (i := .orReg x y) rfl, decodeWord_encode (i := .andReg x y) rfl,
    decodeWord_encode (i := .xorReg x y) rfl,
    ⟨_, hor, fun b _ => ?_, onlyRegs_exec hor, keepsAllBut_exec hor⟩,
    ⟨_, hand, fun b _ => ?_, onlyRegs_exec hand, keepsAllBut_exec hand⟩,
    ⟨_, hxor, fun b _ => ?_, onlyRegs_exec hxor, keepsAllBut_exec hxor⟩⟩
  · rw [readReg_writeReg_self, BitVec.getLsbD_or]
  · rw [readReg_writeReg_self, BitVec.getLsbD_and]
  · rw [readReg_writeReg_self, BitVec.getLsbD_xor]

/-! The instructions that write `VF` and then `Vx` (R166 to R170). -/

/-- Settles O19: the carry is computed from the old values, and the sum is written last. -/
theorem addRegistersCarries : Obligations.AddRegistersCarries := by
  intro x y s
  have h : exec (.addReg x y) s = .next (writeFlagThenResult x
      (carryFlag (readReg x s) (readReg y s)) (readReg x s + readReg y s) s) := rfl
  refine ⟨decodeWord_encode (i := .addReg x y) rfl, _, h, ?_, fun hx => ?_, onlyRegs_exec h,
    keepsAllBut_exec h⟩
  · rw [readReg_writeFlagThenResult_self, BitVec.toNat_add]
  · rw [readReg_vf_writeFlagThenResult hx, toNat_carryFlag]

/-- What SUB and SUBN share: the not borrow of `a - b` in `VF`, then the difference in `Vx`. -/
theorem readReg_writeFlagThenResult_sub (x : RegIx) (a b : Byte) (s : State) :
    ((readReg x (writeFlagThenResult x (noBorrowFlag a b) (a - b) s)).toNat : Int) =
        (a.toNat - b.toNat : Int) % 256 ∧
      (x ≠ vf → (readReg vf (writeFlagThenResult x (noBorrowFlag a b) (a - b) s)).toNat =
        if b.toNat ≤ a.toNat then 1 else 0) := by
  refine ⟨?_, fun hx => ?_⟩
  · rw [readReg_writeFlagThenResult_self, toNat_byte_sub]
  · rw [readReg_vf_writeFlagThenResult hx, toNat_noBorrowFlag]

/-- Settles O20: the two subtractions are one, with the operands exchanged. -/
theorem subtractRegistersNotBorrow : Obligations.SubtractRegistersNotBorrow := by
  intro x y s
  have hsub : exec (.subReg x y) s = .next (writeFlagThenResult x
      (noBorrowFlag (readReg x s) (readReg y s)) (readReg x s - readReg y s) s) := rfl
  have hsubn : exec (.subnReg x y) s = .next (writeFlagThenResult x
      (noBorrowFlag (readReg y s) (readReg x s)) (readReg y s - readReg x s) s) := rfl
  obtain ⟨hxy, hxyFlag⟩ := readReg_writeFlagThenResult_sub x (readReg x s) (readReg y s) s
  obtain ⟨hyx, hyxFlag⟩ := readReg_writeFlagThenResult_sub x (readReg y s) (readReg x s) s
  exact ⟨decodeWord_encode (i := .subReg x y) rfl, decodeWord_encode (i := .subnReg x y) rfl,
    ⟨_, hsub, hxy, hxyFlag, onlyRegs_exec hsub, keepsAllBut_exec hsub⟩,
    ⟨_, hsubn, hyx, hyxFlag, onlyRegs_exec hsubn, keepsAllBut_exec hsubn⟩⟩

/-- Settles O21: the handlers read `Vx` only, and the shifted byte is written last. -/
theorem shiftsAreInPlace : Obligations.ShiftsAreInPlace := by
  intro x y s
  have hshr : exec (.shr x y) s = .next
      (writeFlagThenResult x (shrFlag (readReg x s)) (readReg x s >>> 1) s) := rfl
  have hshl : exec (.shl x y) s = .next
      (writeFlagThenResult x (shlFlag (readReg x s)) (readReg x s <<< 1) s) := rfl
  refine ⟨decodeWord_encode (i := .shr x y) rfl, decodeWord_encode (i := .shl x y) rfl,
    ⟨_, hshr, ?_, fun hx => ?_, onlyRegs_exec hshr, keepsAllBut_exec hshr⟩,
    ⟨_, hshl, ?_, fun hx => ?_, onlyRegs_exec hshl, keepsAllBut_exec hshl⟩⟩
  · rw [readReg_writeFlagThenResult_self, toNat_byte_ushiftRight_one]
  · rw [readReg_vf_writeFlagThenResult hx, toNat_shrFlag]
  · rw [readReg_writeFlagThenResult_self, toNat_byte_shiftLeft_one]
  · rw [readReg_vf_writeFlagThenResult hx, toNat_shlFlag]

/-! The random instruction (R171). -/

theorem readReg_decay (r : RegIx) (s : State) : readReg r (decay s) = readReg r s :=
  readReg_congr (decay_v s) r

/-- A cycle that fetches RND Vx, kk masks the byte that it sampled itself (R263; log 2). -/
theorem readReg_cycle_rnd {inp : CycleInput} {s t : State} {x : RegIx} {kk : Byte}
    (h : cycle inp s = .next t) (hword : decodeWord (wordAtPc s) = .rnd x kk) :
    readReg x t = inp.rnd &&& kk := by
  obtain ⟨u, hu, rfl⟩ := exec_of_cycle h
  rw [hword] at hu
  cases hu
  rw [readReg_decay, readReg_writeReg_self, enter_rnd]

/-- Settles O22: the instruction masks the sampled byte, and in a cycle that byte is the one
presented to it. -/
theorem randomByteUnderMask : Obligations.RandomByteUnderMask := by
  intro x kk s
  have hexec : exec (.rnd x kk) s = .next (writeReg x (s.rnd &&& kk) s) := rfl
  have hdecode : decodeWord (wordXKK 0xC x kk) = .rnd x kk :=
    decodeWord_encode (i := .rnd x kk) rfl
  refine ⟨hdecode, ⟨_, hexec, readReg_writeReg_self x _ s, onlyRegs_exec hexec,
    keepsAllBut_exec hexec⟩, fun inp hfetch => ?_⟩
  have hword : decodeWord (wordAtPc s) = .rnd x kk := by rw [hfetch, hdecode]
  obtain ⟨t, h⟩ := cycle_next inp s
  have honly := onlyRegs_cycle h
  rw [hword] at honly
  exact ⟨t, h, readReg_cycle_rnd h hword, honly⟩

end Sys2Proof.Machine

/-! PROOF. The index register, and the loads and stores at the index (R190 to R196). -/

namespace Sys2Proof.Machine

/-! The index register (R190, R191, R192). -/

/-- `I` holds 16 bits (R25, decision D33). -/
theorem toNat_idx_writeIdx (a : Nat) (s : State) : (writeIdx a s).idx.toNat = a % 65536 :=
  BitVec.toNat_ofNat a 16

/-- A value that fits is stored as it stands. -/
theorem toNat_idx_writeIdx_of_lt {a : Nat} (h : a < 65536) (s : State) :
    (writeIdx a s).idx.toNat = a :=
  (toNat_idx_writeIdx a s).trans (Nat.mod_eq_of_lt h)

theorem immAddr_lt (nnn : BitVec 12) : immAddr nnn < 65536 := nnn.isLt.trans (by decide)

/-- The low nibble keeps the glyph inside the font, whose last glyph starts at 0x09B (R75). -/
theorem glyphAddr_lt (b : Byte) : glyphAddr b < 65536 := by
  have hdigit : b.toNat % 16 < 16 := Nat.mod_lt _ (by decide)
  unfold glyphAddr Config.fontBase
  omega

/-- Settles O23: the three instructions are one write of `I` each, and only the sum of ADD can wrap. -/
theorem indexRegisterWrites : Obligations.IndexRegisterWrites := by
  intro nnn x s
  have hld : exec (.ldI nnn) s = .next (writeIdx (immAddr nnn) s) := rfl
  have hadd : exec (.addIVx x) s = .next (writeIdx (s.idx.toNat + (readReg x s).toNat) s) := rfl
  have hglyph : exec (.ldFVx x) s = .next (writeIdx (glyphAddr (readReg x s)) s) := rfl
  exact ⟨decodeWord_encode (i := .ldI nnn) rfl, decodeWord_encode (i := .addIVx x) rfl,
    decodeWord_encode (i := .ldFVx x) rfl,
    ⟨_, hld, toNat_idx_writeIdx_of_lt (immAddr_lt nnn) s, onlyRegs_exec hld, keepsAllBut_exec hld⟩,
    ⟨_, hadd, toNat_idx_writeIdx _ s, onlyRegs_exec hadd, keepsAllBut_exec hadd⟩,
    ⟨_, hglyph, toNat_idx_writeIdx_of_lt (glyphAddr_lt _) s, onlyRegs_exec hglyph,
      keepsAllBut_exec hglyph⟩⟩

/-! The decimal digits (R193). -/

theorem toNat_hundreds (b : Byte) : (hundreds b).toNat = b.toNat / 100 :=
  (BitVec.toNat_ofNat _ 8).trans (Nat.mod_eq_of_lt (by omega))

theorem toNat_tens (b : Byte) : (tens b).toNat = b.toNat / 10 % 10 :=
  (BitVec.toNat_ofNat _ 8).trans (Nat.mod_eq_of_lt (by omega))

theorem toNat_ones (b : Byte) : (ones b).toNat = b.toNat % 10 :=
  (BitVec.toNat_ofNat _ 8).trans (Nat.mod_eq_of_lt (by omega))

/-- Addresses less than 4096 apart are different cells of memory (R196, decision D6). -/
theorem indexAddr_mod_ne {j k : Nat} (hlt : j < k) (hk : k < 4096) (s : State) :
    indexAddr j s % 4096 ≠ indexAddr k s % 4096 := by
  unfold indexAddr
  omega

/-- The state that LD B, Vx leaves, given the byte whose digits it stores. -/
def storeDigits (b : Byte) (s : State) : State :=
  memWrite (indexAddr 2 s) (ones b)
    (memWrite (indexAddr 1 s) (tens b) (memWrite (indexAddr 0 s) (hundreds b) s))

theorem exec_ldBVx (x : RegIx) (s : State) :
    exec (.ldBVx x) s = .next (storeDigits (readReg x s) s) := rfl

/-- Every byte of memory after the three stores, the last one first. -/
theorem byteAt_storeDigits (b : Byte) (s : State) (a : Nat) :
    byteAt a (storeDigits b s) =
      if a % 4096 = indexAddr 2 s % 4096 then ones b
      else if a % 4096 = indexAddr 1 s % 4096 then tens b
      else if a % 4096 = indexAddr 0 s % 4096 then hundreds b
      else byteAt a s := by
  simp only [storeDigits, byteAt_memWrite]

theorem byteAt_storeDigits_zero (b : Byte) (s : State) :
    byteAt (indexAddr 0 s) (storeDigits b s) = hundreds b := by
  rw [byteAt_storeDigits, if_neg (indexAddr_mod_ne (by decide) (by decide) s),
    if_neg (indexAddr_mod_ne (by decide) (by decide) s), if_pos rfl]

theorem byteAt_storeDigits_one (b : Byte) (s : State) :
    byteAt (indexAddr 1 s) (storeDigits b s) = tens b := by
  rw [byteAt_storeDigits, if_neg (indexAddr_mod_ne (by decide) (by decide) s), if_pos rfl]

theorem byteAt_storeDigits_two (b : Byte) (s : State) :
    byteAt (indexAddr 2 s) (storeDigits b s) = ones b := by
  rw [byteAt_storeDigits, if_pos rfl]

theorem byteAt_storeDigits_of_ne (b : Byte) {s : State} {a : Nat}
    (h : ∀ k < 3, a % 4096 ≠ indexAddr k s % 4096) :
    byteAt a (storeDigits b s) = byteAt a s := by
  rw [byteAt_storeDigits, if_neg (h 2 (by decide)), if_neg (h 1 (by decide)),
    if_neg (h 0 (by decide))]

/-- The last address is the greatest, so it decides the OOB bit (R196, decision D9). -/
theorem oob_storeDigits (b : Byte) (s : State) :
    (storeDigits b s).anom.oob = (s.anom.oob || decide (4096 ≤ indexAddr 2 s)) := by
  have hlast : ((4096 ≤ indexAddr 0 s ∨ 4096 ≤ indexAddr 1 s) ∨ 4096 ≤ indexAddr 2 s) ↔
      4096 ≤ indexAddr 2 s := by
    unfold indexAddr
    omega
  simp only [storeDigits, memWrite_anom, Bool.or_assoc, ← Bool.decide_or, hlast]

/-- Settles O24: the three cells are distinct, and each digit fits in a byte. -/
theorem storeDecimalDigits : Obligations.StoreDecimalDigits := by
  intro x s
  have h := exec_ldBVx x s
  refine ⟨decodeWord_encode (i := .ldBVx x) rfl, _, h, ?_, ?_, ?_,
    fun a ha => byteAt_storeDigits_of_ne _ ha, oob_storeDigits _ s, onlyRegs_exec h,
    keepsAllBut_exec h⟩
  · rw [byteAt_storeDigits_zero, toNat_hundreds]
  · rw [byteAt_storeDigits_one, toNat_tens]
  · rw [byteAt_storeDigits_two, toNat_ones]

/-! The bulk transfers (R194, R195), at the addresses that the operand form gives (R196). -/

theorem indexAddr_zero_add (k : Nat) (s : State) : indexAddr 0 s + k = indexAddr k s := rfl

theorem indexAddr_congr {s t : State} (h : t.idx = s.idx) (k : Nat) :
    indexAddr k t = indexAddr k s := by rw [indexAddr, h, indexAddr]

theorem bulkCount_le (x : RegIx) : bulkCount x ≤ 16 := x.isLt

theorem lt_bulkCount_iff {k : Nat} {x : RegIx} : k < bulkCount x ↔ k ≤ x.toNat :=
  Nat.lt_succ_iff

/-- The OOB bit of a bulk transfer is decided by its last address. -/
theorem decide_oob_bulkCount (x : RegIx) (s : State) :
    decide (0 < bulkCount x ∧ 4096 ≤ indexAddr 0 s + (bulkCount x - 1)) =
      decide (4096 ≤ indexAddr x.toNat s) :=
  decide_eq_decide.mpr (and_iff_right (Nat.succ_pos x.toNat))

/-- Bulk store: where `V[k]` goes. -/
theorem byteAt_indexAddr_storeRegs {k x : RegIx} (hk : k.toNat ≤ x.toNat) (s : State) :
    byteAt (indexAddr k.toNat s) (storeRegs (indexAddr 0 s) (bulkCount x) s) = readReg k s := by
  rw [← indexAddr_zero_add, byteAt_storeRegs_of_lt _ s (bulkCount_le x) (lt_bulkCount_iff.mpr hk),
    BitVec.ofNat_toNat, BitVec.setWidth_eq]

/-- Bulk load: every register after it. -/
theorem readReg_loadRegs_bulkCount (x k : RegIx) (s : State) :
    readReg k (loadRegs (indexAddr 0 s) (bulkCount x) s) =
      if k.toNat ≤ x.toNat then byteAt (indexAddr k.toNat s) s else readReg k s := by
  simp only [readReg_loadRegs _ s _ (bulkCount_le x), lt_bulkCount_iff, indexAddr_zero_add]

/-- Settles O25: at most 16 cells are stored, so no two of them are the same modulo 4096. -/
theorem bulkStoreWritesMemory : Obligations.BulkStoreWritesMemory := by
  intro x s
  have h : exec (.ldMemVx x) s = .next (storeRegs (indexAddr 0 s) (bulkCount x) s) := rfl
  refine ⟨decodeWord_encode (i := .ldMemVx x) rfl, _, h,
    fun k hk => byteAt_indexAddr_storeRegs hk s, fun a ha => ?_, ?_, onlyRegs_exec h,
    keepsAllBut_exec h⟩
  · exact byteAt_storeRegs_of_ne _ s (bulkCount_le x) (fun k hk => ha k (lt_bulkCount_iff.mp hk))
  · rw [storeRegs_anom, decide_oob_bulkCount]

/-- Settles O26: no register write is read by a later access, so every byte is the old one. -/
theorem bulkLoadReadsMemory : Obligations.BulkLoadReadsMemory := by
  intro x s
  have h : exec (.ldVxMem x) s = .next (loadRegs (indexAddr 0 s) (bulkCount x) s) := rfl
  refine ⟨decodeWord_encode (i := .ldVxMem x) rfl, _, h,
    fun k => readReg_loadRegs_bulkCount x k s, ?_, keepsAllBut_exec h⟩
  rw [loadRegs_anom, decide_oob_bulkCount]

/-- Settles O27: the store leaves `I` alone, so the load reads each byte where its register went. -/
theorem bulkStoreThenLoadRestoresRegisters : Obligations.BulkStoreThenLoadRestoresRegisters := by
  intro x s t u hstore hmem hidx
  cases hstore
  refine ⟨_, rfl, fun k hk => ?_⟩
  have haddr : indexAddr k.toNat u = indexAddr k.toNat s :=
    indexAddr_congr (hidx.trans (storeRegs_idx _ _ s)) _
  rw [readReg_loadRegs_bulkCount, if_pos hk, haddr, byteAt_congr hmem,
    byteAt_indexAddr_storeRegs hk]

end Sys2Proof.Machine

/-! PROOF. Clear and draw (R210 to R216). -/

namespace Sys2Proof.Machine

/-! The framebuffer, cell by cell (R30, R73). -/

/-- Two frames with the same cells are the same frame. -/
theorem Frame.eq_of_cell_eq {f g : Frame} (h : ∀ x y, Frame.cell f x y = Frame.cell g x y) :
    f = g := by
  refine Vector.ext (fun y hy => BitVec.eq_of_getLsbD_eq (fun x _ => ?_))
  simpa [Frame.cell, hy] using h x y

theorem pixel_congr {s t : State} (h : t.fb = s.fb) (px py : Nat) :
    pixel px py t = pixel px py s := by rw [pixel, h, pixel]

theorem pixel_of_lt {py : Nat} (hy : py < 32) (px : Nat) (s : State) :
    pixel px py s = s.fb[py].getLsbD px := dif_pos hy

theorem pixel_of_not_lt {py : Nat} (hy : ¬py < 32) (px : Nat) (s : State) :
    pixel px py s = false := dif_neg hy

theorem pixel_clearFrame (px py : Nat) (s : State) : pixel px py (clearFrame s) = false := by
  by_cases hy : py < 32
  · simp [pixel_of_lt hy]
  · exact pixel_of_not_lt hy _ _

/-- Settles O28: the cleared frame has no cell on, and `clearFrame` touches nothing else. -/
theorem clearTurnsEveryCellOff : Obligations.ClearTurnsEveryCellOff := by
  intro pad s
  have h : exec (.cls pad) s = .next (clearFrame s) := rfl
  exact ⟨decodeWord_encode (i := .cls pad) rfl, _, h, fun px py => pixel_clearFrame px py s,
    onlyRegs_exec h, keepsAllBut_exec h⟩

/-! One draw (R211 to R215). -/

/-- What DRW Vx, Vy, n draws, before it writes `VF`: the collision and the state. -/
def drawSprite (x y : RegIx) (n : BitVec 4) (s : State) : Bool × State :=
  drawRows (indexAddr 0 s) (originX (readReg x s)) (originY (readReg y s)) n.toNat s

theorem exec_drw (x y : RegIx) (n : BitVec 4) (s : State) :
    exec (.drw x y n) s =
      .next (writeReg vf (flag (drawSprite x y n s).1) (drawSprite x y n s).2) := rfl

/-- The drawn cells, by rows: a sprite row inside the screen, and a bit of its shifted byte. -/
theorem spriteDraws_iff {x y : RegIx} {n : BitVec 4} {s : State} {px py : Nat} :
    SpriteDraws x y n s px py ↔
      py < 32 ∧ (originY (readReg y s) ≤ py ∧ py < originY (readReg y s) + n.toNat) ∧
        (spriteRow (byteAt (indexAddr 0 s + (py - originY (readReg y s))) s)
          (originX (readReg x s))).getLsbD px = true := by
  simp only [SpriteDraws, spriteRow_bit, Bool.and_eq_true, decide_eq_true_eq, originX, originY,
    indexAddr, Nat.add_zero]
  tauto

/-- A draw toggles the drawn cells and no other (R211). -/
theorem pixel_drawSprite (x y : RegIx) (n : BitVec 4) (s : State) (px py : Nat) :
    pixel px py (drawSprite x y n s).2 = (pixel px py s ^^ decide (SpriteDraws x y n s px py)) := by
  by_cases hy : py < 32
  · rw [pixel_of_lt hy, pixel_of_lt hy, drawSprite, drawRows_row _ _ _ _ _ _ hy]
    split
    · next hrow => simp [spriteDraws_iff, hy, hrow]
    · next hrow => simp [spriteDraws_iff, hrow]
  · simp [pixel_of_not_lt hy, spriteDraws_iff, hy]

/-- A draw collides when a drawn cell was on (R215). -/
theorem drawSprite_hit_iff {x y : RegIx} {n : BitVec 4} {s : State} :
    (drawSprite x y n s).1 = true ↔
      ∃ px py, SpriteDraws x y n s px py ∧ pixel px py s = true := by
  rw [drawSprite, drawRows_hit, List.any_eq_true]
  simp only [List.mem_range, rowHits_iff, spriteDraws_iff]
  constructor
  · rintro ⟨k, hk, px, hon, hbit⟩
    have hy : originY (readReg y s) + k < 32 := by
      by_contra hout
      simp [Frame.cell, hout] at hon
    exact ⟨px, _, ⟨hy, ⟨Nat.le_add_right _ k, Nat.add_lt_add_left hk _⟩,
      by rwa [Nat.add_sub_cancel_left]⟩, hon⟩
  · rintro ⟨px, py, ⟨-, ⟨hle, hlt⟩, hbit⟩, hon⟩
    exact ⟨py - originY (readReg y s), by omega, px,
      by rwa [Nat.add_sub_cancel' hle], hbit⟩

/-- Every row of the sprite is read, and the last address decides the OOB bit (R196, R213). -/
theorem oob_drawSprite (x y : RegIx) (n : BitVec 4) (s : State) :
    (drawSprite x y n s).2.anom.oob =
      (s.anom.oob || decide (∃ k < n.toNat, 4096 ≤ indexAddr k s)) := by
  have hlast : (0 < n.toNat ∧ 4096 ≤ indexAddr 0 s + (n.toNat - 1)) ↔
      ∃ k < n.toNat, 4096 ≤ indexAddr k s := by
    unfold indexAddr
    constructor
    · rintro ⟨hpos, hle⟩
      exact ⟨n.toNat - 1, by omega, hle⟩
    · rintro ⟨k, hk, hle⟩
      omega
  rw [drawSprite, drawRows_anom, decide_eq_decide.mpr hlast]

/-- The collision is the last write of DRW, so `VF` shows it whatever `x` and `y` are (R211). -/
theorem vf_exec_drw {x y : RegIx} {n : BitVec 4} {s t : State}
    (h : exec (.drw x y n) s = .next t) : readReg vf t = flag (drawSprite x y n s).1 := by
  cases h
  exact readReg_writeReg_self _ _ _

theorem flag_eq_one_iff {c : Bool} : flag c = 0x01 ↔ c = true := by
  cases c <;> decide

theorem flag_eq_zero_iff {c : Bool} : flag c = 0x00 ↔ ¬c = true := by
  cases c <;> decide

theorem vf_exec_drw_eq_one_iff {x y : RegIx} {n : BitVec 4} {s t : State}
    (h : exec (.drw x y n) s = .next t) :
    readReg vf t = 0x01 ↔ ∃ px py, SpriteDraws x y n s px py ∧ pixel px py s = true := by
  rw [vf_exec_drw h, flag_eq_one_iff, drawSprite_hit_iff]

theorem vf_exec_drw_eq_zero_iff {x y : RegIx} {n : BitVec 4} {s t : State}
    (h : exec (.drw x y n) s = .next t) :
    readReg vf t = 0x00 ↔ ¬∃ px py, SpriteDraws x y n s px py ∧ pixel px py s = true := by
  rw [vf_exec_drw h, flag_eq_zero_iff, drawSprite_hit_iff]

theorem pixel_exec_drw {x y : RegIx} {n : BitVec 4} {s t : State}
    (h : exec (.drw x y n) s = .next t) (px py : Nat) :
    pixel px py t = (pixel px py s ^^ decide (SpriteDraws x y n s px py)) := by
  cases h
  exact pixel_drawSprite x y n s px py

/-- Settles O29: the rows of a draw do not overlap, so each cell is drawn at most once and the
collision speaks of the frame before the draw. -/
theorem drawTogglesCellsAndReportsCollision : Obligations.DrawTogglesCellsAndReportsCollision := by
  intro x y n s
  have h := exec_drw x y n s
  exact ⟨decodeWord_encode (i := .drw x y n) rfl, _, h, pixel_exec_drw h,
    (vf_exec_drw_eq_one_iff h).mpr, (vf_exec_drw_eq_zero_iff h).mpr, oob_drawSprite x y n s,
    onlyRegs_exec h, keepsAllBut_exec h⟩

/-! Two draws of one sprite (R216; log 13). -/

/-- The drawn cells depend on the memory, the index and the origin only. -/
theorem spriteDraws_congr {x y : RegIx} {n : BitVec 4} {s u : State} (hmem : u.mem = s.mem)
    (hidx : u.idx = s.idx) (hx : (readReg x u).toNat % 64 = (readReg x s).toNat % 64)
    (hy : (readReg y u).toNat % 32 = (readReg y s).toNat % 32) (px py : Nat) :
    SpriteDraws x y n u px py ↔ SpriteDraws x y n s px py := by
  simp only [SpriteDraws, hidx, hx, hy, byteAt_congr hmem]

/-- Settles O30: both draws toggle the same cells, so the second undoes the first, and it finds a
drawn cell on exactly where the first found it off. -/
theorem drawingTwiceRestoresFramebuffer : Obligations.DrawingTwiceRestoresFramebuffer := by
  intro x y n s t u r hfirst hfb hmem hidx hx hy hsecond
  have hdraws := spriteDraws_congr (n := n) hmem hidx hx hy
  have hpixel (px py : Nat) :
      pixel px py u = (pixel px py s ^^ decide (SpriteDraws x y n s px py)) :=
    (pixel_congr hfb px py).trans (pixel_exec_drw hfirst px py)
  refine ⟨Frame.eq_of_cell_eq (fun px py => ?_), ?_⟩
  · calc pixel px py r
      _ = (pixel px py u ^^ decide (SpriteDraws x y n u px py)) := pixel_exec_drw hsecond px py
      _ = pixel px py s := by
        rw [hpixel, decide_eq_decide.mpr (hdraws px py), Bool.xor_assoc, Bool.xor_self,
          Bool.xor_false]
  · rw [vf_exec_drw_eq_one_iff hsecond]
    refine exists₂_congr (fun px py => ?_)
    rw [hdraws, and_congr_right_iff]
    intro hdrawn
    simp [hpixel, hdrawn]

theorem mem_exec_drw {x y : RegIx} {n : BitVec 4} {s t : State}
    (h : exec (.drw x y n) s = .next t) : t.mem = s.mem := by
  cases h
  exact drawRows_mem _ _ _ _ s

theorem idx_exec_drw {x y : RegIx} {n : BitVec 4} {s t : State}
    (h : exec (.drw x y n) s = .next t) : t.idx = s.idx := by
  cases h
  exact drawRows_idx _ _ _ _ s

/-- What R211 and R215 give in place of the last claim of R216, where `VF` holds no coordinate: the
second of two successive draws collides when the first turned some cell on. -/
theorem vf_second_draw_eq_one_iff {x y : RegIx} {n : BitVec 4} {s t r : State} (hx : x ≠ vf)
    (hy : y ≠ vf) (hfirst : exec (.drw x y n) s = .next t)
    (hsecond : exec (.drw x y n) t = .next r) :
    readReg vf r = 0x01 ↔ ∃ px py, SpriteDraws x y n s px py ∧ pixel px py s = false := by
  have horigin (q : RegIx) (hq : q ≠ vf) : readReg q t = readReg q s :=
    onlyRegs_exec_drw hfirst q (by simpa using hq)
  exact (drawingTwiceRestoresFramebuffer x y n s t t r hfirst rfl (mem_exec_drw hfirst)
    (idx_exec_drw hfirst) (by rw [horigin x hx]) (by rw [horigin y hy]) hsecond).2

/-- `I` at the top row of the glyph of digit 0, on a screen with every cell on. -/
def glyphOnLitScreen : State :=
  { State.reset with idx := 0x050, fb := Vector.replicate 32 (BitVec.allOnes 64) }

theorem pixel_glyphOnLitScreen {px py : Nat} (hx : px < 64) (hy : py < 32) :
    pixel px py glyphOnLitScreen = true := by
  simp only [pixel_of_lt hy, glyphOnLitScreen, Vector.getElem_replicate, BitVec.getLsbD_allOnes,
    hx, decide_true]

theorem spriteDraws_glyphOnLitScreen : SpriteDraws 0x0 0x1 0x1 glyphOnLitScreen 0 0 := by
  decide

/-- Refutes O31: on a screen with every cell on, the first draw turns the four cells of the row off
and the second turns them on again, which is no collision by R211 and R215. -/
theorem not_secondDrawCollidesIffSpriteHasAnUnclippedBit :
    ¬ Obligations.SecondDrawCollidesIffSpriteHasAnUnclippedBit := by
  intro hclaim
  have hx : (0x0 : RegIx) ≠ vf := by decide
  have hy : (0x1 : RegIx) ≠ vf := by decide
  obtain ⟨t, hfirst⟩ := exec_next (.drw 0x0 0x1 0x1) glyphOnLitScreen
  obtain ⟨r, hsecond⟩ := exec_next (.drw 0x0 0x1 0x1) t
  have hvf : readReg vf r = 0x01 :=
    (hclaim _ _ _ _ _ _ hx hy hfirst hsecond).mpr ⟨0, 0, spriteDraws_glyphOnLitScreen⟩
  obtain ⟨px, py, ⟨hpx, hpy, -⟩, hoff⟩ :=
    (vf_second_draw_eq_one_iff hx hy hfirst hsecond).mp hvf
  rw [pixel_glyphOnLitScreen hpx hpy] at hoff
  exact absurd hoff (by decide)

end Sys2Proof.Machine

/-! PROOF. The keypad instructions and the timer loads and reads (R230 to R236). -/

namespace Sys2Proof.Machine

/-! The keypad (R230, R231, R233, R236). -/

/-- Settles O32: both conditions are the latched bit of one key number, and `exec` drops the ignored
nibble. -/
theorem skipOnKey : Obligations.SkipOnKey := fun x pad s =>
  ⟨decodeWord_encode (i := .skp x pad) rfl, decodeWord_encode (i := .sknp x pad) rfl,
    ⟨_, rfl, skipEffect_skipIf Iff.rfl s⟩,
    ⟨_, rfl, skipEffect_skipIf (.of_eq (Bool.not_eq_true' _)) s⟩⟩

/-- Stepping back by 2 from an address below 2 wraps to the top of memory (R24, R233). -/
theorem toNat_pc_holdPc (s : State) :
    (holdPc s).pc.toNat = (s.pc.toNat + 4096 - 2) % 4096 := by
  rw [holdPc_spec, BitVec.toNat_ofNat]
  omega

/-- A key number fits in a byte. -/
theorem toNat_byte_ofNat_of_lt {k : Nat} (h : k < 16) : (BitVec.ofNat 8 k).toNat = k :=
  (BitVec.toNat_ofNat k 8).trans (Nat.mod_eq_of_lt (by omega))

/-- Settles O33: LD Vx, K is the step back with no key down, and one register write with a key
down. -/
theorem waitForKeyHoldsOrStores : Obligations.WaitForKeyHoldsOrStores := by
  intro x s
  have h : exec (.ldVxK x) s = .next (waitKey x s) := rfl
  refine ⟨decodeWord_encode (i := .ldVxK x) rfl, fun hnone => ?_, fun hsome => ?_⟩
  · rw [h, waitKey_of_none hnone]
    exact ⟨_, rfl, toNat_pc_holdPc s, .of_v_eq (holdPc_v s), keepsAllBut_holdPc s⟩
  · obtain ⟨k, hk, hdown, hlowest, hwait⟩ := waitKey_of_some (x := x) hsome
    have hread : (readReg x (writeReg x (BitVec.ofNat 8 k) s)).toNat = k := by
      rw [readReg_writeReg_self, toNat_byte_ofNat_of_lt hk]
    rw [h, hwait]
    exact ⟨_, rfl, by rwa [hread], by rwa [hread], by rwa [hread], onlyRegs_writeReg x _ s,
      keepsAllBut_writeReg x _ s⟩

/-! The timers (R232, R234, R235). -/

/-- Settles O34: each instruction is one write, of the value that the other side has at `exec`. -/
theorem timerLoadsAndReads : Obligations.TimerLoadsAndReads := by
  intro x s
  have hread : exec (.ldVxDT x) s = .next (writeReg x s.dt s) := rfl
  have hdelay : exec (.ldDTVx x) s = .next { s with dt := readReg x s } := rfl
  have hsound : exec (.ldSTVx x) s = .next { s with st := readReg x s } := rfl
  exact ⟨decodeWord_encode (i := .ldVxDT x) rfl, decodeWord_encode (i := .ldDTVx x) rfl,
    decodeWord_encode (i := .ldSTVx x) rfl,
    ⟨_, hread, readReg_writeReg_self x s.dt s, onlyRegs_exec hread, keepsAllBut_exec hread⟩,
    ⟨_, hdelay, rfl, onlyRegs_exec hdelay, keepsAllBut_exec hdelay⟩,
    ⟨_, hsound, rfl, onlyRegs_exec hsound, keepsAllBut_exec hsound⟩⟩

end Sys2Proof.Machine

/-! PROOF. What can fail and what cannot: every step completes (R250), and LoadProgram has the host's
only fault and only refusal (R252, R286). -/

namespace Sys2Proof.Machine

/-- Every step completes: it is a cycle with the inputs that it takes (R120, R250). -/
theorem step_next (s : State) : ∃ t, step s = .next t := by
  rw [step_eq_cycle]
  exact cycle_next (nextInput s) (takeInput s)

/-- Settles O38: no instruction faults or is refused, and the rest of a cycle cannot fail. -/
theorem everyStepAnswersNext : Obligations.EveryStepAnswersNext :=
  ⟨exec_next, cycle_next, step_next⟩

theorem loadProgram_of_started {s : State} (hstarted : s.started = true) (bytes : List Byte) :
    loadProgram bytes s = .refused .loadAfterFirstCycle := by
  rw [loadProgram, if_pos hstarted]

theorem loadProgram_of_romMax_lt {bytes : List Byte} {s : State} (hstarted : s.started = false)
    (hlen : Config.romMax < bytes.length) : loadProgram bytes s = .fault .romTooLarge := by
  rw [loadProgram, if_neg (by simp [hstarted]), if_pos hlen]

/-- The latch of a cycle closes the load window, and no instruction opens it again (R285). -/
theorem started_of_step {s t : State} (h : step s = .next t) : t.started = true := by
  rw [step_eq_cycle] at h
  obtain ⟨-, -, -, -, hstarted⟩ := inputs_of_cycle h
  exact hstarted

/-- Settles O52: the two rejections are the first two branches of `loadProgram`, and every step
leaves the load window closed. -/
theorem loadProgramRejections : Obligations.LoadProgramRejections :=
  ⟨fun _ _ hstarted hlen => loadProgram_of_romMax_lt hstarted hlen,
    fun bytes _ hstarted => loadProgram_of_started hstarted bytes,
    fun _ _ h => started_of_step h⟩

end Sys2Proof.Machine

/-! PROOF. What a successful LoadProgram does (R284, R285). -/

namespace Sys2Proof.Machine

/-- The branch of `loadProgram` that the two rejections leave (R252, R286). -/
theorem loadProgram_next {bytes : List Byte} {s : State} (hstarted : s.started = false)
    (hlen : bytes.length ≤ Config.romMax) : ∃ t, loadProgram bytes s = .next t := by
  rw [loadProgram, if_neg (by simp [hstarted]), if_neg (Nat.not_lt_of_le hlen)]
  exact ⟨_, rfl⟩

/-- A read after a load: the image from 0x200 up, every other byte as before. -/
theorem byteAt_of_loadProgram {bytes : List Byte} {s t : State}
    (h : loadProgram bytes s = .next t) {a : Nat} (ha : a < 4096) :
    byteAt a t = if hin : 0x200 ≤ a ∧ a < 0x200 + bytes.length then bytes[a - 0x200]'(by omega)
      else byteAt a s := by
  obtain ⟨-, -, rfl⟩ := of_loadProgram h
  simp only [byteAt, Nat.mod_eq_of_lt ha, Memory.read_writeAll]

theorem onlyRegs_of_loadProgram {bytes : List Byte} {s t : State}
    (h : loadProgram bytes s = .next t) : OnlyRegs [] s t := by
  obtain ⟨-, -, rfl⟩ := of_loadProgram h
  exact .of_v_eq rfl

theorem keepsAllBut_of_loadProgram {bytes : List Byte} {s t : State}
    (h : loadProgram bytes s = .next t) : KeepsAllBut [.mem] s t := by
  obtain ⟨-, -, rfl⟩ := of_loadProgram h
  apply KeepsAllBut.of_fields <;> simp [SameInputs]

/-- Settles O51: both byte clauses are the one read after a load, and an image of at most 3584 bytes
from 0x200 up ends inside memory, so none of its addresses wraps. -/
theorem loadProgramCopiesTheImage : Obligations.LoadProgramCopiesTheImage := by
  intro bytes s hstarted hlen
  obtain ⟨t, ht⟩ := loadProgram_next hstarted hlen
  refine ⟨t, ht, fun k hk => ?_, fun a ha hout => ?_, onlyRegs_of_loadProgram ht,
    keepsAllBut_of_loadProgram ht⟩
  · have hin : 0x200 ≤ 0x200 + k ∧ 0x200 + k < 0x200 + bytes.length := by omega
    rw [byteAt_of_loadProgram ht (by omega), dif_pos hin]
    simp only [Nat.add_sub_cancel_left]
  · rw [byteAt_of_loadProgram ht ha, dif_neg (by omega)]

end Sys2Proof.Machine
